-- ==== Sys2Proof/Word.lean ====
section
/-! DEFINITION. The word types of the core: bytes, the 9-bit registers and the 3-bit flags
(00_scope.md R6; 10_state.md R30, R35, R39, R41). -/

namespace Sys2Proof

/-- A register, a memory byte, an opcode word or an operand byte: 8 bits, always unsigned (R7). -/
abbrev Byte := BitVec 8

/-- The width of `pc` and `sp`: 9 bits, so that one past the end of memory is representable (R35, R39). -/
abbrev Addr9 := BitVec 9

/-- The flags register `FL`: bit 2 is L, bit 1 is G, bit 0 is E (R41). -/
abbrev FlagBits := BitVec 3

end Sys2Proof
end

