-- ==== Sys2Proof/Config.lean ====
section
/-! DEFINITION. The configuration arguments of the core (00_scope.md R6). The spec leaves no value
free (92_eei_decisions.md decides every open point), so no free value is declared here; the three
open parameters are data, and the values this hardware takes stand in Decode.lean. -/

namespace Sys2Proof

/-- `OPCODE_MAP`: the opcode word of each row of the opcode table (30_encoding.md R106; parameter, R6). -/
structure OpcodeMap where
  hlt  : Byte
  ret  : Byte
  push : Byte
  pop  : Byte
  prn  : Byte
  call : Byte
  jmp  : Byte
  jeq  : Byte
  jne  : Byte
  ldi  : Byte
  add  : Byte
  mul  : Byte
  cmp  : Byte
  sub  : Byte
  div  : Byte
  deriving DecidableEq, Repr

/-- The parameters a model takes as configuration arguments (R6): `SP_RESET`, `EXPOSE_SUB_DIV` and
`OPCODE_MAP`. Every other parameter of R6 is fixed. -/
structure Config where
  spReset      : Addr9
  exposeSubDiv : Bool
  opcodes      : OpcodeMap
  deriving DecidableEq, Repr

end Sys2Proof
end

