-- ==== Sys2Proof/Syntax.lean ====
section
/-! DEFINITION. The instructions, one constructor per row of spec/opcode_table.json (30_encoding.md
R103, R106), and their names. -/

namespace Sys2Proof

/-- The rows of the opcode table by name (R106), in the table's order. -/
inductive Op where
  | hlt | ret | push | pop | prn | call | jmp | jeq | jne | ldi | add | mul | cmp | sub | div
  deriving DecidableEq, Repr

/-- The instruction formats (R103): `f0` no operand, `f1r` one register index, `f2ri` a register
index and an immediate, `f2rr` two register indices. -/
inductive Format where
  | f0 | f1r | f2ri | f2rr
  deriving DecidableEq, Repr

/-- An instruction with its operand bytes. A register operand is the whole byte, 0..255 (R104); the
immediate of `ldi` is the whole byte, used as it stands (R105). -/
inductive Instr where
  | hlt
  | ret
  | push (r : Byte)
  | pop (r : Byte)
  | prn (r : Byte)
  | call (r : Byte)
  | jmp (r : Byte)
  | jeq (r : Byte)
  | jne (r : Byte)
  | ldi (r imm8 : Byte)
  | add (ra rb : Byte)
  | mul (ra rb : Byte)
  | cmp (ra rb : Byte)
  | sub (ra rb : Byte)
  | div (ra rb : Byte)
  deriving DecidableEq, Repr

end Sys2Proof
end

