-- ==== Sys2Proof/Decode.lean ====
section
/-! DEFINITION. The opcode table, the decoder and the encoder (30_encoding.md R100 to R112). -/

namespace Sys2Proof

/-! ### Rows of the table -/

/-- Every row of the opcode table, in the order of R106. -/
def Op.all : List Op :=
  [.hlt, .ret, .push, .pop, .prn, .call, .jmp, .jeq, .jne, .ldi, .add, .mul, .cmp, .sub, .div]

/-- The format of each row (R103, R106). -/
def Op.format : Op → Format
  | .hlt | .ret => .f0
  | .push | .pop | .prn | .call | .jmp | .jeq | .jne => .f1r
  | .ldi => .f2ri
  | .add | .mul | .cmp | .sub | .div => .f2rr

/-- How many operand bytes a format has (R103). -/
def Format.operands : Format → Nat
  | .f0 => 0
  | .f1r => 1
  | .f2ri | .f2rr => 2

/-- The row's operand count (R106). -/
def Op.operands (op : Op) : Nat := op.format.operands

/-- The row's sets-PC-directly flag (R106). -/
def Op.setsPc : Op → Bool
  | .ret | .call | .jmp | .jeq | .jne => true
  | .hlt | .push | .pop | .prn | .ldi | .add | .mul | .cmp | .sub | .div => false

/-- The row's mnemonic (R106). -/
def Op.mnemonic : Op → String
  | .hlt => "HLT" | .ret => "RET" | .push => "PUSH" | .pop => "POP" | .prn => "PRN"
  | .call => "CALL" | .jmp => "JMP" | .jeq => "JEQ" | .jne => "JNE" | .ldi => "LDI"
  | .add => "ADD" | .mul => "MUL" | .cmp => "CMP" | .sub => "SUB" | .div => "DIV"

/-- The opcode word an `OPCODE_MAP` gives a row. -/
def OpcodeMap.word (m : OpcodeMap) : Op → Byte
  | .hlt => m.hlt | .ret => m.ret | .push => m.push | .pop => m.pop | .prn => m.prn
  | .call => m.call | .jmp => m.jmp | .jeq => m.jeq | .jne => m.jne | .ldi => m.ldi
  | .add => m.add | .mul => m.mul | .cmp => m.cmp | .sub => m.sub | .div => m.div

/-- The opcode words of R106. HLT, PRN and LDI are the source's; the other twelve are the spec's own
decisions D2, D3 and D4 (log entry 6). -/
def defaultOpcodes : OpcodeMap :=
  { hlt  := 0b00000001, ret  := 0b00010001
    push := 0b01000101, pop  := 0b01000110, prn := 0b01000111
    call := 0b01010000, jmp  := 0b01010100, jeq := 0b01010101, jne := 0b01010110
    ldi  := 0b10000010
    add  := 0b10100000, mul  := 0b10100010, cmp := 0b10100111
    sub  := 0b10100001, div  := 0b10100011 }

/-- The values this hardware takes (R6): `SP_RESET` = 0xF4, `EXPOSE_SUB_DIV` = false, the table of R106. -/
def Config.hardware : Config :=
  { spReset := 0xF4, exposeSubDiv := false, opcodes := defaultOpcodes }

/-- All fifteen rows of spec/opcode_table.json: this hardware's table with SUB and DIV exposed (R112). -/
def Config.fullTable : Config := { Config.hardware with exposeSubDiv := true }

/-! ### Fields of the opcode word (R101) -/

/-- `w[7:6]`, the operand count field `AA`. -/
def wordCount (w : Byte) : Nat := (w.extractLsb' 6 2).toNat

/-- `w[5]`, the ALU marker `B`; descriptive only. -/
def wordIsAlu (w : Byte) : Bool := w.getLsbD 5

/-- `w[4]`, the sets-PC-directly flag `C`. -/
def wordSetsPc (w : Byte) : Bool := w.getLsbD 4

/-- `w[3:0]`, the identifier `D`; descriptive only. -/
def wordIdent (w : Byte) : Nat := (w.extractLsb' 0 4).toNat

/-! ### The opcode table (R106, R112) -/

/-- One row as the decoder reads it: the word, the instruction it names and the row's metadata. -/
structure OpRow where
  word     : Byte
  op       : Op
  operands : Nat
  setsPc   : Bool
  deriving DecidableEq, Repr

/-- Whether the table has the row at all: SUB and DIV only when `EXPOSE_SUB_DIV` is true (R112). -/
def Config.hasRow (c : Config) : Op → Bool
  | .sub | .div => c.exposeSubDiv
  | .hlt | .ret | .push | .pop | .prn | .call | .jmp | .jeq | .jne | .ldi | .add | .mul | .cmp => true

/-- The row of one instruction. -/
def Config.row (c : Config) (op : Op) : OpRow :=
  { word := c.opcodes.word op, op := op, operands := op.operands, setsPc := op.setsPc }

/-- The opcode table, "the sole source of truth for this metadata" (R106, R149). -/
def opcodeTable (c : Config) : List OpRow := (Op.all.filter c.hasRow).map c.row

/-- The decoder's lookup of a fetched word (R107): none means unrecognized (R109). -/
def lookup (c : Config) (w : Byte) : Option OpRow := (opcodeTable c).find? (fun r => r.word == w)

/-- The instruction a row and its operand bytes make; a byte the format does not have is not used (R103). -/
def Op.build (op : Op) (op1 op2 : Byte) : Instr :=
  match op with
  | .hlt => .hlt
  | .ret => .ret
  | .push => .push op1
  | .pop => .pop op1
  | .prn => .prn op1
  | .call => .call op1
  | .jmp => .jmp op1
  | .jeq => .jeq op1
  | .jne => .jne op1
  | .ldi => .ldi op1 op2
  | .add => .add op1 op2
  | .mul => .mul op1 op2
  | .cmp => .cmp op1 op2
  | .sub => .sub op1 op2
  | .div => .div op1 op2

/-! ### The decoder -/

/-- Why bytes do not decode: there are none, the word has no row (R109), or an operand byte is missing. -/
inductive DecodeError where
  | noBytes
  | unrecognized (w : Byte)
  | truncated (w : Byte) (operandsRead : List Byte)
  deriving DecidableEq, Repr

/-- The decoder on a byte list: the first instruction and the bytes after it, or why there is none.
Exactly the row's operand count of bytes is taken (R107, R111, R144). -/
def decode (c : Config) : List Byte → Except DecodeError (Instr × List Byte)
  | [] => .error .noBytes
  | w :: rest =>
    match lookup c w with
    | none => .error (.unrecognized w)
    | some row =>
      if rest.length < row.operands then .error (.truncated w rest)
      else .ok (row.op.build (rest.getD 0 0) (rest.getD 1 0), rest.drop row.operands)

/-! ### The encoder -/

/-- The row an instruction belongs to. -/
def Instr.op : Instr → Op
  | .hlt => .hlt
  | .ret => .ret
  | .push _ => .push
  | .pop _ => .pop
  | .prn _ => .prn
  | .call _ => .call
  | .jmp _ => .jmp
  | .jeq _ => .jeq
  | .jne _ => .jne
  | .ldi _ _ => .ldi
  | .add _ _ => .add
  | .mul _ _ => .mul
  | .cmp _ _ => .cmp
  | .sub _ _ => .sub
  | .div _ _ => .div

/-- The operand bytes in memory order (R102, R103). -/
def Instr.operandBytes : Instr → List Byte
  | .hlt | .ret => []
  | .push r | .pop r | .prn r | .call r | .jmp r | .jeq r | .jne r => [r]
  | .ldi r imm8 => [r, imm8]
  | .add ra rb | .mul ra rb | .cmp ra rb | .sub ra rb | .div ra rb => [ra, rb]

/-- The bytes of an instruction, opcode word first (R100, R103). -/
def encode (c : Config) (i : Instr) : List Byte := c.opcodes.word i.op :: i.operandBytes

/-! ### Words as spec/opcode_table.json numbers them -/

/-- The three bytes of a table word, first byte in bits 7..0; bits at and above `nbits` are 0. -/
def tableBytes (nbits w : Nat) : List Byte :=
  let v := w % 2 ^ nbits
  [BitVec.ofNat 8 v, BitVec.ofNat 8 (v / 256), BitVec.ofNat 8 (v / 65536)]

/-- What the decoder reads from a table word. The table lists SUB and DIV too, so the decoder runs
with them exposed (log entry 4). -/
def decodeTableWord (nbits w : Nat) : Option Instr :=
  match decode Config.fullTable (tableBytes nbits w) with
  | .ok (i, _) => some i
  | .error _ => none

end Sys2Proof
end

