-- ==== Sys2Proof/WellFormed.lean ====
section
/-! DEFINITION. What a legal configuration and a well-formed instruction are (00_scope.md R6;
30_encoding.md R104, R108, R112, R120). Any operand byte is legal at decode (R110), so the only
check on a machine instruction is that the opcode table has its row. -/

namespace Sys2Proof

/-- R108: every row's word has `w[7:6]` equal to its operand count and `w[4]` equal to its sets-PC
flag, and no two rows share a word. R6 admits exactly the maps that keep this. -/
def OpcodeMap.legal (m : OpcodeMap) : Bool :=
  Op.all.all (fun op => wordCount (m.word op) == op.operands && wordSetsPc (m.word op) == op.setsPc)
    && decide (Op.all.map m.word).Nodup

/-- R6: `SP_RESET` is any value 0..256, `OPCODE_MAP` any legal map. -/
def Config.wf (c : Config) : Bool := decide (c.spReset.toNat ≤ 256) && c.opcodes.legal

/-- The opcode table has the instruction's row (R106, R112). -/
def Instr.wf (c : Config) (i : Instr) : Bool := c.hasRow i.op

/-- The instruction has an assembly spelling: every register operand is 0..7 (R120). -/
def Instr.spellable : Instr → Bool
  | .hlt | .ret => true
  | .push r | .pop r | .prn r | .call r | .jmp r | .jeq r | .jne r => decide (r.toNat ≤ 7)
  | .ldi r _ => decide (r.toNat ≤ 7)
  | .add ra rb | .mul ra rb | .cmp ra rb | .sub ra rb | .div ra rb =>
    decide (ra.toNat ≤ 7) && decide (rb.toNat ≤ 7)

end Sys2Proof
end

