-- ==== Sys2Proof/Machine/State.lean ====
section
/-! DEFINITION. The state of the core as plain data (10_state.md), its reset value (70 R300), and the
reasons a step could stop the model. -/

namespace Sys2Proof.Machine

/-- The run state (R44). -/
inductive RunState where
  | idle | running | halted | faulted
  deriving DecidableEq, Repr

/-- Why the core left Running (60_exceptions.md R271); code 7 is unused and has no constructor. -/
inductive StopCause where
  | none | hltExecuted | unrecognizedOpcode | outOfRange | invalidRegister | divisionByZero
  | unsupportedOperation
  deriving DecidableEq, Repr

/-- Where in the step the core stopped (R45). -/
inductive StopPhase where
  | opcodeFetch | decode | operandFetch | execute
  deriving DecidableEq, Repr

/-- The stop record (R45). -/
structure StopRecord where
  cause : StopCause
  phase : StopPhase
  pc    : Addr9
  word  : Byte
  nops  : BitVec 2
  op1   : Byte
  op2   : Byte
  info  : BitVec 10
  deriving DecidableEq, Repr

/-- The stop record after reset: every field 0 (R47). -/
def StopRecord.cleared : StopRecord :=
  { cause := .none, phase := .opcodeFetch, pc := 0, word := 0, nops := 0, op1 := 0, op2 := 0, info := 0 }

/-- Memory contents: the (address, byte) cells that do not hold 0, addresses strictly rising. An
unlisted address 0..255 holds 0, which is what reset leaves in every cell (R49, R74). -/
abbrev Memory := List Host.Cell

/-- The whole state of the core (the state summary of 10_state.md, R50, R52), and the configuration
arguments of R6, which nothing writes (log entry 3). -/
structure State where
  /-- The general registers R0..R7 (R30). -/
  x      : Vector Byte 8
  /-- The address of the next opcode to fetch (R35). -/
  pc     : Addr9
  /-- The stack pointer, a register of its own (R33, R39). -/
  sp     : Addr9
  /-- The comparison flags L, G, E (R41). -/
  fl     : FlagBits
  /-- The run state (R44). -/
  run    : RunState
  /-- The stop record (R45). -/
  stop   : StopRecord
  /-- The 256 bytes of memory (R49, R70). -/
  mem    : Memory
  /-- The output events since reset, oldest first (R52). -/
  output : List Byte
  /-- The configuration arguments (R6). -/
  cfg    : Config
  deriving DecidableEq, Repr

/-- Reasons the machine stops without a next state. There are none: every error of the core is an
entry into Halted or Faulted that the spec describes (60_exceptions.md R270, R276, R277), so it is a
next state. Nobody raises a fault; that is safe, as no run is cut short by the model. -/
inductive Fault where
  deriving DecidableEq, Repr

/-- Reasons an instruction has no meaning in the model. -/
inductive Refusal where
  /-- Raised by an arm of exec whose instruction has no meaning yet. Safe: nothing can be proved
  about a state that is not reached. No arm raises it in this model. -/
  | notModelled (mnemonic : String)
  deriving DecidableEq, Repr

/-- The state after reset for a configuration (R34, R38, R40, R43, R44, R47, R49, R300). -/
def State.resetWith (c : Config) : State :=
  { x := Vector.replicate 8 0
    pc := 0
    sp := c.spReset
    fl := 0
    run := .idle
    stop := .cleared
    mem := []
    output := []
    cfg := c }

/-- The machine right after reset, with the values this hardware takes for its parameters (R6, R300). -/
def State.reset : State := State.resetWith Config.hardware

end Sys2Proof.Machine
end

