-- ==== Sys2Proof/Machine/Flags.lean ====
section
/-! DEFINITION. The comparison flags (10_state.md R41, R42; 41_alu.md R178). -/

namespace Sys2Proof.Machine

/-- `FL.L`, less-than (R41). -/
def flagL (fl : FlagBits) : Bool := fl.getLsbD 2

/-- `FL.G`, greater-than (R41). -/
def flagG (fl : FlagBits) : Bool := fl.getLsbD 1

/-- `FL.E`, equal (R41). -/
def flagE (fl : FlagBits) : Bool := fl.getLsbD 0

/-- The flags CMP computes, comparing unsigned integers (R178). -/
def cmpFlags (a b : Byte) : FlagBits :=
  if a.toNat < b.toNat then 0b100
  else if b.toNat < a.toNat then 0b010
  else 0b001

end Sys2Proof.Machine
end

