-- ==== Sys2Proof/Machine/Operands.lean ====
section
/-! DEFINITION. The operand forms: register indices and the widening to 9 bits, with the error kinds
an execute phase can raise (10_state.md R31; 30_encoding.md R104, R105; 60_exceptions.md R272 to R275). -/

namespace Sys2Proof.Machine

/-- The error kinds of a step and the value each carries (R272 to R275). -/
inductive CoreError where
  | outOfRange (addr : Int)
  | invalidRegister (index : Byte)
  | divisionByZero (divisor : Byte)
  | unsupportedOperation (selector : BitVec 3)
  deriving DecidableEq, Repr

/-- A computation that ends with a value or raises an error (`raise E(info)`, R10). -/
abbrev Exec (α : Type) := Except CoreError α

/-- The value of register `r`; an index above 7 raises `InvalidRegister` and is never masked (R31, R104). -/
def readReg (s : State) (r : Byte) : Exec Byte :=
  if h : r.toNat < 8 then .ok s.x[r.toNat] else .error (.invalidRegister r)

/-- The registers with register `r` set to `v`; an index above 7 raises `InvalidRegister` (R31). -/
def writeReg (s : State) (r v : Byte) : Exec (Vector Byte 8) :=
  if h : r.toNat < 8 then .ok (s.x.set r.toNat v) else .error (.invalidRegister r)

/-- The register-index check alone, for an instruction that checks before it computes (R224). -/
def checkReg (r : Byte) : Exec Unit :=
  if r.toNat < 8 then .ok () else .error (.invalidRegister r)

/-- LDI's immediate: the operand byte as it stands, no extension or scaling (R105). -/
def immediate (imm8 : Byte) : Byte := imm8

/-- `zext_9`: an 8-bit value placed in the 9-bit `pc` (R10, R105, R240). -/
def zext9 (v : Byte) : Addr9 := v.setWidth 9

end Sys2Proof.Machine
end

