-- ==== Sys2Proof/Machine/Ops.lean ====
section
/-! DEFINITION. The shared operations: state updates, memory access with its range check, the stack,
stopping, and the commit of an instruction (20_memory.md, 43_stack.md, 40_dispatch.md, 60_exceptions.md). -/

namespace Sys2Proof.Machine

/-! ### State updates -/

/-- `x <- v`, the whole register file. -/
def State.withX (s : State) (v : Vector Byte 8) : State := { s with x := v }
/-- `pc <- v`. -/
def State.withPc (s : State) (v : Addr9) : State := { s with pc := v }
/-- `sp <- v`. -/
def State.withSp (s : State) (v : Addr9) : State := { s with sp := v }
/-- `FL <- v`. -/
def State.withFl (s : State) (v : FlagBits) : State := { s with fl := v }
/-- `mem <- v`. -/
def State.withMem (s : State) (v : Memory) : State := { s with mem := v }
/-- `emit(v)`: one event on the output port (R10, R52). -/
def State.emit (s : State) (v : Byte) : State := { s with output := s.output ++ [v] }
/-- Leave Running: the run state and the stop record, and nothing else (R46, R281). -/
def State.stopped (s : State) (run : RunState) (stop : StopRecord) : State :=
  { s with run := run, stop := stop }

/-! ### Memory access (R9, R72) -/

/-- The range check, on the exact integer address, never reduced modulo 256 (R72). -/
def checkRange (addr : Int) : Exec Unit :=
  if 0 ≤ addr ∧ addr ≤ 255 then .ok () else .error (.outOfRange addr)

/-- `MemRead(addr, 1)`. -/
def memRead (s : State) (addr : Int) : Exec Byte := do
  checkRange addr
  return s.mem.read addr.toNat

/-- `MemWrite(addr, 1, v)`. -/
def memWrite (s : State) (addr : Int) (v : Byte) : Exec State := do
  checkRange addr
  return s.withMem (s.mem.write addr.toNat v)

/-! ### The stack (R220) -/

/-- The address a push writes: `sp - 1`, exact, so -1 when `sp` is 0 (R220, R221). -/
def pushAddr (s : State) : Int := (s.sp.toNat : Int) - 1

/-- Push a byte: decrement `sp`, then write `mem[sp]` (R220, R221). -/
def pushByte (s : State) (v : Byte) : Exec State := do
  let t ← memWrite s (pushAddr s) v
  return t.withSp (BitVec.ofInt 9 (pushAddr s))

/-- Pop a byte: read `mem[sp]`, then increment `sp`; the byte stays in memory (R220, R224). -/
def popByte (s : State) : Exec (Byte × State) := do
  let v ← memRead s s.sp.toNat
  return (v, s.withSp (BitVec.ofNat 9 (s.sp.toNat + 1)))

/-! ### Stopping (R271 to R277)

There is no trap to a handler (R270) and no return from a stop (R282): these operations are the
whole of stop entry (R281). -/

/-- The stop cause of an error (R271). -/
def CoreError.cause : CoreError → StopCause
  | .outOfRange _ => .outOfRange
  | .invalidRegister _ => .invalidRegister
  | .divisionByZero _ => .divisionByZero
  | .unsupportedOperation _ => .unsupportedOperation

/-- The value recorded in `stop.info`, 10 bits in two's complement (R45, R272 to R275). -/
def CoreError.info : CoreError → BitVec 10
  | .outOfRange addr => BitVec.ofInt 10 addr
  | .invalidRegister index => index.setWidth 10
  | .divisionByZero divisor => divisor.setWidth 10
  | .unsupportedOperation selector => selector.setWidth 10

/-- A fatal error: nothing is committed, `run <- Faulted`, and the stop record says why and where
(R146, R276). `word` and `ops` are what had been fetched. -/
def takeFault (s : State) (e : CoreError) (phase : StopPhase) (word : Byte) (ops : List Byte) : State :=
  s.stopped .faulted
    { cause := e.cause
      phase := phase
      pc := s.pc
      word := word
      nops := BitVec.ofNat 2 ops.length
      op1 := ops.getD 0 0
      op2 := ops.getD 1 0
      info := e.info }

/-- The record of an orderly stop at address `pc` (R143, R147). -/
def haltRecord (cause : StopCause) (phase : StopPhase) (pc : Addr9) (word : Byte) : StopRecord :=
  { StopRecord.cleared with cause := cause, phase := phase, pc := pc, word := word }

/-- An unrecognized opcode: an orderly stop with `pc` left at the word (R143, R277). -/
def haltUnrecognized (s : State) (word : Byte) : State :=
  s.stopped .halted (haltRecord .unrecognizedOpcode .decode s.pc word)

/-! ### Finishing an instruction (R142, R145, R146) -/

/-- The address `n` bytes after the instruction's own address `p`. -/
def pcAfter (s : State) (n : Nat) : Addr9 := BitVec.ofNat 9 (s.pc.toNat + n)

/-- Commit the writes of an execute phase that raised nothing: `s` is the state at fetch, `t` the state
with the writes made. The dispatcher advances `pc` unless the instruction sets it (R142, R146). -/
def commit (i : Instr) (s t : State) : State :=
  if i.op.setsPc then t else t.withPc (pcAfter s (i.op.operands + 1))

/-- The opcode word of an instruction under the machine's opcode map (R106): the word the fetch unit
read when it fetched the instruction. -/
def wordOf (i : Instr) (s : State) : Byte := s.cfg.opcodes.word i.op

/-- The end of every instruction but HLT: commit, or take the fault in the execute phase (R146). -/
def finish (i : Instr) (s : State) (r : Exec State) : Host.Outcome State Fault Refusal :=
  match r with
  | .ok t => .next (commit i s t)
  | .error e => .next (takeFault s e .execute (wordOf i s) i.operandBytes)

end Sys2Proof.Machine
end

