-- ==== Sys2Proof/Machine/Alu.lean ====
section
/-! DEFINITION. The ALU block and the instructions that use it: ADD, MUL, CMP, SUB, DIV (41_alu.md). -/

namespace Sys2Proof.Machine

/-- The errors the ALU block answers (R170). -/
inductive AluError where
  | divisionByZero | unsupportedOperation
  deriving DecidableEq, Repr

/-- The ALU's outputs (R170). `result` is present exactly when `result_we` = 1 and `fl` exactly when
`fl_we` = 1: the spec gives neither a value when its enable is 0. -/
structure AluOut where
  result : Option Byte
  fl     : Option FlagBits
  err    : Option AluError
  deriving DecidableEq, Repr

/-- `result_we`. -/
def AluOut.resultWe (o : AluOut) : Bool := o.result.isSome
/-- `fl_we`. -/
def AluOut.flWe (o : AluOut) : Bool := o.fl.isSome

/-- The selector of ADD (R170). -/
def selAdd : BitVec 3 := 0
/-- The selector of SUB (R170). -/
def selSub : BitVec 3 := 1
/-- The selector of MUL (R170). -/
def selMul : BitVec 3 := 2
/-- The selector of DIV (R170). -/
def selDiv : BitVec 3 := 3
/-- The selector of CMP (R170). -/
def selCmp : BitVec 3 := 7

/-- An exact integer reduced modulo 256 (R7, R187). -/
def mod256 (v : Int) : Byte := BitVec.ofInt 8 v

/-- The ALU block, a pure function of a selector and two bytes: ADD (R172), SUB (R181), MUL (R175),
DIV (R184), CMP (R178), and `UnsupportedOperation` for selectors 4, 5 and 6 (R186). -/
def alu (sel : BitVec 3) (a b : Byte) : AluOut :=
  if sel = selAdd then { result := some (mod256 ((a.toNat : Int) + b.toNat)), fl := none, err := none }
  else if sel = selSub then { result := some (mod256 ((a.toNat : Int) - b.toNat)), fl := none, err := none }
  else if sel = selMul then { result := some (mod256 ((a.toNat : Int) * b.toNat)), fl := none, err := none }
  else if sel = selDiv then
    if b.toNat = 0 then { result := none, fl := none, err := some .divisionByZero }
    else { result := some (BitVec.ofNat 8 (a.toNat / b.toNat)), fl := none, err := none }
  else if sel = selCmp then { result := none, fl := some (cmpFlags a b), err := none }
  else { result := none, fl := none, err := some .unsupportedOperation }

/-- The dispatcher's write-back of `result` into `x[ra]` when `result_we` = 1 (R170). -/
def writeResult (s : State) (ra : Byte) : Option Byte → Exec State
  | some v => do
    let x ← writeReg s ra v
    return s.withX x
  | none => .ok s

/-- The dispatcher's write-back of `fl` into `FL` when `fl_we` = 1 (R170). -/
def writeFlags (s : State) : Option FlagBits → State
  | some fl => s.withFl fl
  | none => s

/-- The dispatcher's write-back of the ALU's outputs (R170). -/
def aluWriteBack (s : State) (ra : Byte) (o : AluOut) : Exec State := do
  let t ← writeResult s ra o.result
  return writeFlags t o.fl

/-- The execute phase of an ALU instruction: check `ra`, then `rb`, run the ALU, raise its error or
write back (R170, R171, R183, R188). -/
def aluExec (sel : BitVec 3) (ra rb : Byte) (s : State) : Exec State := do
  let a ← readReg s ra
  let b ← readReg s rb
  let o := alu sel a b
  match o.err with
  | some .divisionByZero => throw (.divisionByZero rb)
  | some .unsupportedOperation => throw (.unsupportedOperation sel)
  | none => aluWriteBack s ra o

/-- ADD (R171): `x[ra] <- (x[ra] + x[rb]) mod 256`. -/
def execAdd (ra rb : Byte) (s : State) : Host.Outcome State Fault Refusal :=
  finish (.add ra rb) s (aluExec selAdd ra rb s)

/-- MUL (R174): `x[ra] <- (x[ra] * x[rb]) mod 256`. -/
def execMul (ra rb : Byte) (s : State) : Host.Outcome State Fault Refusal :=
  finish (.mul ra rb) s (aluExec selMul ra rb s)

/-- CMP (R177): `FL` records how `x[ra]` compares with `x[rb]`; no register is written. -/
def execCmp (ra rb : Byte) (s : State) : Host.Outcome State Fault Refusal :=
  finish (.cmp ra rb) s (aluExec selCmp ra rb s)

/-- SUB (R180): `x[ra] <- (x[ra] - x[rb]) mod 256`. -/
def execSub (ra rb : Byte) (s : State) : Host.Outcome State Fault Refusal :=
  finish (.sub ra rb) s (aluExec selSub ra rb s)

/-- DIV (R183): `x[ra] <- x[ra] div x[rb]`, or `DivisionByZero(rb)` with nothing written. -/
def execDiv (ra rb : Byte) (s : State) : Host.Outcome State Fault Refusal :=
  finish (.div ra rb) s (aluExec selDiv ra rb s)

end Sys2Proof.Machine
end

