-- ==== Sys2Proof/Machine/Control.lean ====
section
/-! DEFINITION. Control transfer: CALL, RET, JMP, JEQ, JNE (44_control_transfer.md). Each writes `pc` on
every path (40_dispatch.md R148). -/

namespace Sys2Proof.Machine

/-- CALL's return address `p + 2` as the byte to push; 256 and above has no byte (R241, D13). -/
def returnAddress (s : State) : Exec Byte :=
  if s.pc.toNat + 2 ≤ 255 then .ok (BitVec.ofNat 8 (s.pc.toNat + 2))
  else .error (.outOfRange ((s.pc.toNat : Int) + 2))

/-- `pc <- zext_9(x[r])` (R240, R247). -/
def jumpTo (r : Byte) (s : State) : Exec State := do
  let t ← readReg s r
  return s.withPc (zext9 t)

/-- A conditional jump: taken, it reads the register; not taken, it writes `pc <- p + 2` and reads and
checks no register (R148, R250, R253). -/
def branch (taken : Bool) (r : Byte) (s : State) : Exec State :=
  if taken then jumpTo r s else return s.withPc (pcAfter s 2)

/-- CALL (R241): the target is read first; then the push address is checked, then the return address. -/
def execCall (r : Byte) (s : State) : Host.Outcome State Fault Refusal :=
  finish (.call r) s do
    let target ← readReg s r
    checkRange (pushAddr s)
    let ret ← returnAddress s
    let t ← pushByte s ret
    return t.withPc (zext9 target)

/-- RET (R244): `pc <- zext_9(mem[sp])`, `sp <- sp + 1`. -/
def execRet (s : State) : Host.Outcome State Fault Refusal :=
  finish .ret s do
    let (v, t) ← popByte s
    return t.withPc (zext9 v)

/-- JMP (R247): `pc <- zext_9(x[r])`. -/
def execJmp (r : Byte) (s : State) : Host.Outcome State Fault Refusal :=
  finish (.jmp r) s (jumpTo r s)

/-- JEQ (R250): jump when `FL.E` = 1, else fall through. -/
def execJeq (r : Byte) (s : State) : Host.Outcome State Fault Refusal :=
  finish (.jeq r) s (branch (flagE s.fl) r s)

/-- JNE (R253): jump when `FL.E` = 0, else fall through. -/
def execJne (r : Byte) (s : State) : Host.Outcome State Fault Refusal :=
  finish (.jne r) s (branch (!flagE s.fl) r s)

end Sys2Proof.Machine
end

