-- ==== Sys2Proof/Machine/Stack.lean ====
section
/-! DEFINITION. PUSH and POP (43_stack.md). -/

namespace Sys2Proof.Machine

/-- PUSH (R221): `mem[sp - 1] <- x[r]`, `sp <- sp - 1`. -/
def execPush (r : Byte) (s : State) : Host.Outcome State Fault Refusal :=
  finish (.push r) s do
    let v ← readReg s r
    pushByte s v

/-- POP (R224): `x[r] <- mem[sp]`, `sp <- sp + 1`; the register check comes before the address check. -/
def execPop (r : Byte) (s : State) : Host.Outcome State Fault Refusal :=
  finish (.pop r) s do
    checkReg r
    let (v, t) ← popByte s
    let x ← writeReg t r v
    return t.withX x

end Sys2Proof.Machine
end

