-- ==== Sys2Proof/Machine/SystemData.lean ====
section
/-! DEFINITION. HLT, LDI and PRN (42_system_and_data.md). -/

namespace Sys2Proof.Machine

/-- HLT (R200, R147): `pc` advances by 1 as part of the step, then `run <- Halted` with cause 1. -/
def execHlt (s : State) : Host.Outcome State Fault Refusal :=
  .next ((commit .hlt s s).stopped .halted (haltRecord .hltExecuted .execute s.pc (wordOf .hlt s)))

/-- LDI (R204): `x[r] <- imm8`. -/
def execLdi (r imm8 : Byte) (s : State) : Host.Outcome State Fault Refusal :=
  finish (.ldi r imm8) s do
    let x ← writeReg s r (immediate imm8)
    return s.withX x

/-- PRN (R207): one output event with the byte `x[r]`. -/
def execPrn (r : Byte) (s : State) : Host.Outcome State Fault Refusal :=
  finish (.prn r) s do
    let v ← readReg s r
    return s.emit v

end Sys2Proof.Machine
end

