-- ==== Sys2Proof/Machine/Fetch.lean ====
section
/-! DEFINITION. The fetch unit and the placing of an instruction where it is fetched (40_dispatch.md R141
to R144, R147). -/

namespace Sys2Proof.Machine

/-- What the fetch and decode phases of a step give: an instruction, an unrecognized word (R143), or an
`OutOfRange` in the opcode or the operand fetch, with the word and operands read so far (R141, R144). -/
inductive Fetched where
  | instr (i : Instr)
  | unrecognized (word : Byte)
  | failed (e : CoreError) (phase : StopPhase) (word : Byte) (ops : List Byte)
  deriving DecidableEq, Repr

/-- Read `n` operand bytes in order from `addr` on, after those in `got`; on a failed read, the error and
the bytes read before it (R144). -/
def fetchOperands (s : State) (addr : Nat) : Nat → List Byte → Except (CoreError × List Byte) (List Byte)
  | 0, got => .ok got
  | n + 1, got =>
    match memRead s addr with
    | .error e => .error (e, got)
    | .ok b => fetchOperands s (addr + 1) n (got ++ [b])

/-- Fetch and decode at `pc`: the opcode word, the table lookup, then exactly the row's operands (R141,
R143, R144). -/
def fetch (s : State) : Fetched :=
  match memRead s s.pc.toNat with
  | .error e => .failed e .opcodeFetch 0 []
  | .ok w =>
    match lookup s.cfg w with
    | none => .unrecognized w
    | some row =>
      match fetchOperands s (s.pc.toNat + 1) row.operands [] with
      | .error (e, got) => .failed e .operandFetch w got
      | .ok ops => .instr (row.op.build (ops.getD 0 0) (ops.getD 1 0))

/-- The bytes of memory from an address on: what a decoder reading there would see, at most three. -/
def bytesFrom (m : Memory) (addr : Nat) : List Byte :=
  ((List.range 3).filter (fun k => decide (addr + k ≤ 255))).map (fun k => m.read (addr + k))

/-- Store bytes at consecutive addresses, leaving out any past the end of memory. -/
def Memory.writeAll (m : Memory) (addr : Nat) : List Byte → Memory
  | [] => m
  | b :: rest => Memory.writeAll (if addr ≤ 255 then m.write addr b else m) (addr + 1) rest

/-- Where a table word is placed: at `pc`, or at 0 when its bytes would not fit before the end of
memory (log entry 4). -/
def placeAddr (s : State) (bytes : List Byte) : Nat :=
  if s.pc.toNat + (wordCount (bytes.headD 0) + 1) ≤ 256 then s.pc.toNat else 0

/-- SUB and DIV are fetched only with `EXPOSE_SUB_DIV` true (R112). -/
def needsSubDiv (bytes : List Byte) : Bool :=
  bytes.headD 0 == defaultOpcodes.sub || bytes.headD 0 == defaultOpcodes.div

/-- The state with the bytes of a table word where the next fetch reads them, and what that fetch needs:
Running (the host's load and start), the table's own opcode map, and SUB and DIV exposed for their
words (log entries 4 and 5). -/
def placeWord (s : State) (bytes : List Byte) : State :=
  { s with
    mem := s.mem.writeAll (placeAddr s bytes) bytes
    pc := BitVec.ofNat 9 (placeAddr s bytes)
    run := .running
    cfg := { s.cfg with
      opcodes := defaultOpcodes
      exposeSubDiv := s.cfg.exposeSubDiv || needsSubDiv bytes } }

end Sys2Proof.Machine
end

