-- ==== Sys2Proof/Machine/Step.lean ====
section
/-! DEFINITION. One step grant (40_dispatch.md R140, R147). -/

namespace Sys2Proof.Machine

/-- One step: fetch, decode, execute and commit while Running; in Idle, Halted and Faulted nothing
changes (R140). A stop is a next state (R143, R276). -/
def step (s : State) : Host.Outcome State Fault Refusal :=
  match s.run with
  | .idle | .halted | .faulted => .next s
  | .running =>
    match fetch s with
    | .failed e phase word ops => .next (takeFault s e phase word ops)
    | .unrecognized word => .next (haltUnrecognized s word)
    | .instr i => exec i s

/-- The state with a table word stored where `step` fetches its next instruction, started (log entries 4
and 5). -/
def State.withFetchWord (s : State) (nbits w : Nat) : State := placeWord s (tableBytes nbits w)

end Sys2Proof.Machine
end

