-- ==== Sys2Proof/Machine/Assembly.lean ====
section
/-! DEFINITION. Assembler syntax: the spelling of an instruction and its reading back (30_encoding.md
R120, R122). Text is a list of characters (log entry 11). -/

namespace Sys2Proof.Machine

/-! ### Spelling -/

/-- The character of a decimal digit. -/
def digitChar (d : Nat) : Char := Char.ofNat (48 + d)

/-- A byte in decimal without leading zeros. -/
def spellByte (v : Byte) : List Char :=
  let n := v.toNat
  if n < 10 then [digitChar n]
  else if n < 100 then [digitChar (n / 10), digitChar (n % 10)]
  else [digitChar (n / 100), digitChar (n / 10 % 10), digitChar (n % 10)]

/-- `R<n>`. Above 7 this is the spelling test vectors use; no assembly text has it (R120). -/
def spellReg (r : Byte) : List Char := 'R' :: spellByte r

/-- The characters of a row's mnemonic (R106). -/
def opChars (op : Op) : List Char := op.mnemonic.toList

/-- The operands of an instruction as text, separated by a comma (R120). -/
def spellOperands : Instr → List Char
  | .hlt | .ret => []
  | .push r | .pop r | .prn r | .call r | .jmp r | .jeq r | .jne r => ' ' :: spellReg r
  | .ldi r imm8 => ' ' :: spellReg r ++ ',' :: spellByte imm8
  | .add ra rb | .mul ra rb | .cmp ra rb | .sub ra rb | .div ra rb =>
    ' ' :: spellReg ra ++ ',' :: spellReg rb

/-- The assembly line of an instruction (R120). -/
def spell (i : Instr) : List Char := opChars i.op ++ spellOperands i

/-! ### Reading -/

/-- Text cut at every `sep`. -/
def splitOn (sep : Char) : List Char → List (List Char)
  | [] => [[]]
  | c :: rest =>
    match splitOn sep rest with
    | [] => [[c]]
    | word :: words => if c = sep then [] :: word :: words else (c :: word) :: words

/-- The row a mnemonic names (R106). -/
def opNamed (name : List Char) : Option Op := Op.all.find? (fun op => opChars op == name)

/-- The value of a digit character in a base, if it is one. -/
def digitValue (base : Nat) (c : Char) : Option Nat :=
  if 48 ≤ c.toNat ∧ c.toNat < 48 + base then some (c.toNat - 48) else none

/-- A numeral read from the left, `acc` being the value of the digits before it. -/
def numeralFrom (base acc : Nat) : List Char → Option Nat
  | [] => some acc
  | c :: rest =>
    match digitValue base c with
    | some d => numeralFrom base (base * acc + d) rest
    | none => none

/-- A numeral of at least one digit with value 0..255. -/
def numeralByte (base : Nat) : List Char → Option Byte
  | [] => none
  | c :: rest =>
    match numeralFrom base 0 (c :: rest) with
    | some v => if v ≤ 255 then some (BitVec.ofNat 8 v) else none
    | none => none

/-- An immediate: decimal, or `0b` and binary digits (R120). -/
def readImmediate : List Char → Option Byte
  | '0' :: 'b' :: digits => numeralByte 2 digits
  | text => numeralByte 10 text

/-- A register operand: `R<n>` with n in 0..7 (R120). -/
def readRegister : List Char → Option Byte
  | ['R', c] => (digitValue 8 c).map (BitVec.ofNat 8)
  | _ => none

/-- The operand bytes a format's operand texts assemble to (R103, R120). -/
def readOperands (f : Format) (texts : List (List Char)) : Option (Byte × Byte) :=
  match f, texts with
  | .f1r, [t] => do
    let r ← readRegister t
    return (r, 0)
  | .f2ri, [t, u] => do
    let r ← readRegister t
    let v ← readImmediate u
    return (r, v)
  | .f2rr, [t, u] => do
    let ra ← readRegister t
    let rb ← readRegister u
    return (ra, rb)
  | .f0, _ | .f1r, _ | .f2ri, _ | .f2rr, _ => none

/-- The instruction an assembly line stands for: exactly one, or none where the text is no line of R120
(R120, R122). -/
def assemble (text : List Char) : Option Instr :=
  match splitOn ' ' text with
  | [name] => do
    let op ← opNamed name
    if op.format = .f0 then some (op.build 0 0) else none
  | [name, operands] => do
    let op ← opNamed name
    let (a, b) ← readOperands op.format (splitOn ',' operands)
    return op.build a b
  | _ => none

end Sys2Proof.Machine
end

