-- ==== Sys2Proof/Machine/Interface.lean ====
section
/-! DEFINITION. The core's interface to its host: the status outputs, the output port, and the host's
actions between steps (10_state.md R44, R51, R52; 70_reset_and_hazards.md R300 to R309). -/

namespace Sys2Proof.Machine

/-! ### Status outputs as numbers -/

/-- `run_state`: Idle 0, Running 1, Halted 2, Faulted 3 (R44). -/
def RunState.code : RunState → BitVec 2
  | .idle => 0
  | .running => 1
  | .halted => 2
  | .faulted => 3

/-- `stop.cause` (R271). -/
def StopCause.code : StopCause → BitVec 3
  | .none => 0
  | .hltExecuted => 1
  | .unrecognizedOpcode => 2
  | .outOfRange => 3
  | .invalidRegister => 4
  | .divisionByZero => 5
  | .unsupportedOperation => 6

/-- `stop.phase` (R45). -/
def StopPhase.code : StopPhase → BitVec 2
  | .opcodeFetch => 0
  | .decode => 1
  | .operandFetch => 2
  | .execute => 3

/-- The output port over one step from `s` to `t`: `out_data` when `out_valid` = 1 (R51, R52). -/
def outEvent (s t : State) : Option Byte := (t.output.drop s.output.length).head?

/-! ### Host actions (R308) -/

/-- `reset`: every piece of state takes its reset value; the configuration is not state (R300). -/
def hostReset (s : State) : State := State.resetWith s.cfg

/-- `load_we` with `load_addr` and `load_data`: one byte of memory, only while Idle (R87, R306). -/
def hostLoad (addr data : Byte) (s : State) : State :=
  match s.run with
  | .idle => { s with mem := s.mem.write addr.toNat data }
  | .running | .halted | .faulted => s

/-- `start`: Idle to Running; no effect in any other run state (R303). -/
def hostStart (s : State) : State :=
  match s.run with
  | .idle => { s with run := .running }
  | .running | .halted | .faulted => s

/-- What the host can do to the core (R308); consuming an output event and reading the status or the
observer view change nothing (R52, R290). -/
inductive HostAction where
  | reset
  | load (addr data : Byte)
  | start
  | stepGrant
  | observe
  deriving DecidableEq, Repr

/-- The core after one host action (R300, R303, R305, R306, R290). -/
def hostApply (a : HostAction) (s : State) : Host.Outcome State Fault Refusal :=
  match a with
  | .reset => .next (hostReset s)
  | .load addr data => .next (hostLoad addr data s)
  | .start => .next (hostStart s)
  | .stepGrant => step s
  | .observe => .next s

/-- Load an image of bytes at consecutive addresses from `addr` on, one load write each (R306). -/
def loadFrom (addr : Nat) : List Byte → State → State
  | [], s => s
  | b :: rest, s => loadFrom (addr + 1) rest (hostLoad (BitVec.ofNat 8 addr) b s)

/-- The program image as `mem[0..n-1]` (R79, R306). -/
def loadImage (image : List Byte) (s : State) : State := loadFrom 0 image s

/-- The boot order: reset, load the image, start (R309). -/
def boot (image : List Byte) (s : State) : State := hostStart (loadImage image (hostReset s))

/-! ### The output as the host has it (R52, R301) -/

/-- A core with the events the host took from it in runs before the last reset. -/
structure Session where
  core      : State
  delivered : List Byte
  deriving DecidableEq, Repr

/-- Every event emitted so far, oldest first. -/
def Session.emitted (w : Session) : List Byte := w.delivered ++ w.core.output

/-- What a host action has handed over: at reset the port is empty again, and the events emitted before
stay emitted (R52, R301). -/
def Session.handedOver (a : HostAction) (w : Session) : List Byte :=
  match a with
  | .reset => w.emitted
  | .load _ _ | .start | .stepGrant | .observe => w.delivered

/-- A host action on a session. -/
def Session.apply (a : HostAction) (w : Session) : Host.Outcome Session Fault Refusal :=
  match hostApply a w.core with
  | .next t => .next { core := t, delivered := w.handedOver a }
  | .fault r => .fault r
  | .refused r => .refused r

end Sys2Proof.Machine
end

