-- ==== Sys2Proof/Machine/Loader.lean ====
section
/-! DEFINITION. The host's Loader: program text to memory image (30_encoding.md R121; 70 R307; 60 R278).
It is outside the core (00_scope.md R5); the core sees only the image (log entry 10). -/

namespace Sys2Proof.Machine

/-- Why a program file is refused; the core is then never started (R307). -/
inductive LoadError where
  /-- `MalformedInstruction(line_number, text)` (R278, R307). -/
  | malformedInstruction (lineNumber : Nat) (text : List Char)
  /-- More byte lines than memory has bytes (R307). -/
  | imageTooLong (length : Nat)
  /-- No byte line at all: an image has 1 to 256 bytes (R306, D26). -/
  | imageEmpty
  deriving DecidableEq, Repr

/-- Everything before a `#` comment marker (R121, R307). -/
def stripComment : List Char → List Char
  | [] => []
  | c :: rest => if c = '#' then [] else c :: stripComment rest

/-- Blanks that trimming removes. -/
def isBlank (c : Char) : Bool := c == ' ' || c == '\t' || c == '\r' || c == '\n'

/-- Leading blanks removed. -/
def dropBlanks : List Char → List Char
  | [] => []
  | c :: rest => if isBlank c then dropBlanks rest else c :: rest

/-- Blanks removed at both ends (R307). -/
def trim (text : List Char) : List Char := (dropBlanks (dropBlanks text).reverse).reverse

/-- A base-2 numeral read from the left, `acc` being the value of the digits before it. -/
def binaryFrom (acc : Nat) : List Char → Option Nat
  | [] => some acc
  | c :: rest =>
    if c = '0' then binaryFrom (2 * acc) rest
    else if c = '1' then binaryFrom (2 * acc + 1) rest
    else none

/-- A token that is a byte in base 2: at least one digit, value at most 255 (R307, D26). -/
def binaryByte : List Char → Option Byte
  | [] => none
  | c :: rest =>
    match binaryFrom 0 (c :: rest) with
    | some v => if v ≤ 255 then some (BitVec.ofNat 8 v) else none
    | none => none

/-- The bytes of the lines from number `line` on; the first malformed line refuses the file (R307). -/
def parseLines (line : Nat) : List (List Char) → Except LoadError (List Byte)
  | [] => .ok []
  | text :: rest =>
    match trim (stripComment text) with
    | [] => parseLines (line + 1) rest
    | c :: token =>
      match binaryByte (c :: token) with
      | none => .error (.malformedInstruction line text)
      | some b =>
        match parseLines (line + 1) rest with
        | .ok bytes => .ok (b :: bytes)
        | .error e => .error e

/-- The image of a program file given as its lines: 1 to 256 bytes, or a refusal (R306, R307). -/
def parseProgram (lines : List (List Char)) : Except LoadError (List Byte) :=
  match parseLines 1 lines with
  | .error e => .error e
  | .ok [] => .error .imageEmpty
  | .ok (b :: image) =>
    if image.length < 256 then .ok (b :: image) else .error (.imageTooLong (image.length + 1))

/-- Reset, and load and start the program if the Loader accepts it; on a refusal the core is not started and
stays Idle (R278, R307, R309). DESIGN CHOICE (log entry 10): the whole file is parsed before the first load
write, so a refused file leaves no byte in memory; the spec does not say whether the lines before a malformed
one have been written. -/
def bootProgram (lines : List (List Char)) (s : State) : State :=
  match parseProgram lines with
  | .ok image => boot image s
  | .error _ => hostReset s

end Sys2Proof.Machine
end

