-- ==== Sys2Proof/Safety.lean ====
section
/-! DEFINITION. What counts as a run, its end and a safe end, and the invariant of the core's states
(40_dispatch.md R150; 60_exceptions.md R271, R281; 10_state.md R35, R39, R41). -/

namespace Sys2Proof.Machine

/-! ### Ends of a run (R150) -/

/-- The run has ended: `run` is Halted or Faulted. -/
def State.Ended (s : State) : Prop := s.run = .halted ∨ s.run = .faulted

/-- The run has ended normally, by HLT or an unrecognized opcode (R150). -/
def State.EndedNormally (s : State) : Prop := s.run = .halted

/-- The run has ended in error (R150). This is the unsafe end. -/
def State.EndedInError (s : State) : Prop := s.run = .faulted

/-- The state after `k` step grants (R305); the machine answers no fault and no refusal. -/
def stepsFrom (k : Nat) (s : State) : Host.Outcome State Fault Refusal := Sys2Proof.core.run k s

/-! ### The invariant -/

/-- `FL` is clear before the first CMP and has exactly one bit set after any CMP (R41, R43). -/
def FlLegal (fl : FlagBits) : Prop := fl = 0b000 ∨ fl = 0b100 ∨ fl = 0b010 ∨ fl = 0b001

/-- The stop record agrees with the run state: clear in Idle and Running, written once at the stop with
a cause of that run state (R46, R47, R271), and `pc` where that stop leaves it (R143, R200, R276). No
run ends with code 6 (R275). -/
def StopAgrees (s : State) : Prop :=
  match s.run with
  | .idle | .running => s.stop = StopRecord.cleared
  | .halted =>
    (s.stop.cause = .hltExecuted ∧ s.stop.phase = .execute ∧ s.pc.toNat = s.stop.pc.toNat + 1) ∨
    (s.stop.cause = .unrecognizedOpcode ∧ s.stop.phase = .decode ∧ s.pc = s.stop.pc)
  | .faulted =>
    (s.stop.cause = .outOfRange ∨ s.stop.cause = .invalidRegister ∨ s.stop.cause = .divisionByZero) ∧
    s.stop.phase ≠ .decode ∧ s.pc = s.stop.pc

/-- What holds of every state the core reaches: memory in canonical form, `sp` in 0..256 (R39), `pc` in
0..256 (R35; vector note on D-7), `FL` legal, the stop record in agreement, the configuration legal. -/
structure State.Inv (s : State) : Prop where
  mem_wf : s.mem.wf = true
  sp_le : s.sp.toNat ≤ 256
  pc_le : s.pc.toNat ≤ 256
  fl_legal : FlLegal s.fl
  stop_agrees : StopAgrees s
  cfg_wf : s.cfg.wf = true

end Sys2Proof.Machine
end

