-- ==== Sys2Proof/Certificates/Slice0/Obligations.lean ====
section
/-! DEFINITION. What is claimed of the core, each statement with the rules of spec/ it formalises. -/

open Sys2Proof Sys2Proof.Machine

/-! ### Words of the statements -/

namespace Sys2Proof.Stmt

/-- `pc + n`, exact for every `pc` a step can start from (R142). -/
def pcPlus (s : State) (n : Nat) : Addr9 := BitVec.ofNat 9 (s.pc.toNat + n)

/-- The state a fatal error leaves: the state before, but for `run` and the stop record (R276). -/
def faultOf (s : State) (cause : StopCause) (phase : StopPhase) (word : Byte) (nops : Nat)
    (op1 op2 : Byte) (info : Int) : State :=
  { s with
    run := .faulted
    stop :=
      { cause := cause, phase := phase, pc := s.pc, word := word, nops := BitVec.ofNat 2 nops
        op1 := op1, op2 := op2, info := BitVec.ofInt 10 info } }

/-- The state a fatal error in the execute phase of `i` leaves: the word and all operand bytes of `i` are
in the record (R276). -/
def execFault (s : State) (i : Instr) (cause : StopCause) (info : Int) : State :=
  faultOf s cause .execute (s.cfg.opcodes.word i.op) i.operandBytes.length
    (i.operandBytes.getD 0 0) (i.operandBytes.getD 1 0) info

/-- The state an orderly stop leaves: `s` but for `run` and the stop record (R143, R147). -/
def haltOf (s : State) (cause : StopCause) (phase : StopPhase) (pc : Addr9) (word : Byte) : State :=
  { s with
    run := .halted
    stop :=
      { cause := cause, phase := phase, pc := pc, word := word, nops := 0, op1 := 0, op2 := 0, info := 0 } }

/-- The opcode word of `op` is at `pc` in a Running core whose table has the row. -/
structure WordAtPc (s : State) (op : Op) : Prop where
  running : s.run = .running
  legal : s.cfg.opcodes.legal = true
  inMemory : s.pc.toNat ≤ 255
  word : s.mem.read s.pc.toNat = s.cfg.opcodes.word op

/-- An instruction whose operands run past the end of memory faults in the operand fetch (R144). -/
def OperandFetchFaults (op : Op) : Prop :=
  ∀ s : State, WordAtPc s op → s.cfg.hasRow op = true → 255 < s.pc.toNat + op.operands →
    step s = .next (faultOf s .outOfRange .operandFetch (s.cfg.opcodes.word op) (255 - s.pc.toNat)
      (if s.pc.toNat = 255 then 0 else s.mem.read 255) 0 256)

/-- A word whose row needs `EXPOSE_SUB_DIV` stops as unrecognized where that is false (R112). -/
def UnrecognizedWhenHidden (op : Op) : Prop :=
  ∀ s : State, WordAtPc s op → s.cfg.exposeSubDiv = false →
    step s = .next (haltOf s .unrecognizedOpcode .decode s.pc (s.cfg.opcodes.word op))

/-- A one-register instruction raises `InvalidRegister` on every index above 7, in any state (R273). -/
def RegisterChecked (mk : Byte → Instr) : Prop :=
  ∀ (s : State) (r : Byte), 8 ≤ r.toNat →
    exec (mk r) s = .next (execFault s (mk r) .invalidRegister r.toNat)

/-- A two-register instruction checks `ra`, then `rb` (R188). -/
def RegistersChecked (mk : Byte → Byte → Instr) : Prop :=
  (∀ (s : State) (ra rb : Byte), 8 ≤ ra.toNat →
    exec (mk ra rb) s = .next (execFault s (mk ra rb) .invalidRegister ra.toNat)) ∧
  (∀ (s : State) (ra rb : Byte), ra.toNat < 8 → 8 ≤ rb.toNat →
    exec (mk ra rb) s = .next (execFault s (mk ra rb) .invalidRegister rb.toNat))

/-- The rule of an ALU instruction that writes `f` of its two registers into the first: its bytes, its
result with everything else unchanged, and its errors. -/
def AluInstrRule (mk : Byte → Byte → Instr) (op : Op) (word : Byte) (f : Nat → Nat → Nat) : Prop :=
  (∀ ra rb : Byte, encode Config.fullTable (mk ra rb) = [word, ra, rb]) ∧
  (∀ (s : State) (ra rb : Byte) (_ : ra.toNat < 8) (_ : rb.toNat < 8),
    exec (mk ra rb) s = .next { s with
      x := s.x.set ra.toNat (BitVec.ofNat 8 (f s.x[ra.toNat].toNat s.x[rb.toNat].toNat))
      pc := pcPlus s 3 }) ∧
  RegistersChecked mk ∧ OperandFetchFaults op

/-- The rule shared by JMP, taken JEQ and taken JNE: `pc <- zext_9(x[r])` and nothing else, or
`InvalidRegister` (R240). -/
def Jumps (mk : Byte → Instr) (s : State) : Prop :=
  ∀ r : Byte,
    (∀ _ : r.toNat < 8, exec (mk r) s = .next { s with pc := BitVec.ofNat 9 s.x[r.toNat].toNat }) ∧
    (8 ≤ r.toNat → exec (mk r) s = .next (execFault s (mk r) .invalidRegister r.toNat))

/-- The register an instruction names as its destination (R32). -/
def destReg : Instr → Option Byte
  | .ldi r _ | .pop r => some r
  | .add ra _ | .mul ra _ | .sub ra _ | .div ra _ => some ra
  | .hlt | .ret | .push _ | .prn _ | .call _ | .jmp _ | .jeq _ | .jne _ | .cmp _ _ => none

/-- What no instruction of a group changes: registers but the destination, and the configuration. -/
def KeepsRegisters (i : Instr) (s t : State) : Prop :=
  (∀ (k : Nat) (_ : k < 8), destReg i ≠ some (BitVec.ofNat 8 k) → t.x[k] = s.x[k]) ∧ t.cfg = s.cfg

/-- `run` and the stop record are as before, unless the instruction ended in a fatal error (R46). -/
def KeepsRunUnlessFault (s t : State) : Prop :=
  (t.run = s.run ∧ t.stop = s.stop) ∨ t.run = .faulted

/-- Every address reads as before. -/
def KeepsMemory (s t : State) : Prop := ∀ a : Nat, t.mem.read a = s.mem.read a

/-- A byte as a line of a program file: an 8-bit binary literal (R121). -/
def byteLine (b : Byte) : List Char :=
  [7, 6, 5, 4, 3, 2, 1, 0].map (fun k => if b.getLsbD k then '1' else '0')

end Sys2Proof.Stmt

open Sys2Proof.Stmt

/-! ### Reset and the host's actions -/

/-- R300 with R34, R38, R40, R43, R47 and R49: what reset leaves, from any state, and the parameter
values this hardware takes (R6). -/
def Obligations.ResetSetsEveryField : Prop :=
  (∀ s : State,
    (∀ (k : Nat) (_ : k < 8), (hostReset s).x[k] = 0) ∧
    (hostReset s).pc = 0 ∧ (hostReset s).sp = s.cfg.spReset ∧ (hostReset s).fl = 0b000 ∧
    (hostReset s).run = .idle ∧ (hostReset s).run.code = 0 ∧
    (hostReset s).stop.cause.code = 0 ∧ (hostReset s).stop.phase.code = 0 ∧
    (hostReset s).stop.pc = 0 ∧ (hostReset s).stop.word = 0 ∧ (hostReset s).stop.nops = 0 ∧
    (hostReset s).stop.op1 = 0 ∧ (hostReset s).stop.op2 = 0 ∧ (hostReset s).stop.info = 0 ∧
    (∀ a : Nat, (hostReset s).mem.read a = 0) ∧ (hostReset s).output = []) ∧
  hostReset State.reset = State.reset ∧ State.reset.sp = 0xF4 ∧
  State.reset.cfg.exposeSubDiv = false

/-- R303: `start` moves Idle to Running and nothing else, has no effect in any other run state, and after
reset leaves the core to fetch at address 0. -/
def Obligations.StartOnlyFromIdle : Prop :=
  ∀ s : State,
    (s.run = .idle → hostStart s = { s with run := .running }) ∧ (s.run ≠ .idle → hostStart s = s) ∧
    (hostStart (hostReset s)).run = .running ∧ (hostStart (hostReset s)).pc = 0

/-- R306: a load write while Idle sets the byte addressed and changes nothing else, in any other run state
it has no effect; an image of at most 256 bytes loaded while Idle is `mem[0..n-1]`, the bytes above as they
were. That the memory is and stays canonical is about the model's representation (log entry 12). -/
def Obligations.LoadedImageIsInMemory : Prop :=
  (∀ (s : State) (addr data : Byte), s.run = .idle → s.mem.wf = true →
    hostLoad addr data s = { s with mem := s.mem.write addr.toNat data } ∧
    ∀ a : Nat, (hostLoad addr data s).mem.read a = if a = addr.toNat then data else s.mem.read a) ∧
  (∀ (s : State) (image : List Byte), s.run = .idle → image.length ≤ 256 → s.mem.wf = true →
    loadImage image s = { s with mem := (loadImage image s).mem } ∧
    (loadImage image s).mem.wf = true ∧
    ∀ a : Nat, (loadImage image s).mem.read a = if a < image.length then image.getD a 0 else s.mem.read a) ∧
  (∀ (s : State) (addr data : Byte), s.run ≠ .idle → hostLoad addr data s = s)

/-- R309: after reset, load and start the core is Running at address 0 with `sp` = `SP_RESET`, the image in
memory from address 0 and 0 above it, and every other field at its reset value. -/
def Obligations.BootStartsAtAddressZero : Prop :=
  ∀ (s : State) (image : List Byte), image.length ≤ 256 →
    boot image s =
      { State.resetWith s.cfg with run := .running, mem := (boot image s).mem } ∧
    ∀ a : Nat, (boot image s).mem.read a = image.getD a 0

/-- R140 and R201: outside Running a step changes nothing; once a run has ended (R150) any number of step
grants changes nothing, and neither does a start or a load. That a grant outside Running answers the same state
as a next state is the model's choice (log entry 1). -/
def Obligations.StoppedCoreIsInert : Prop :=
  ∀ s : State,
    (s.run ≠ .running → step s = .next s) ∧
    (s.Ended →
      hostStart s = s ∧ (∀ addr data : Byte, hostLoad addr data s = s) ∧
      ∀ k : Nat, stepsFrom k s = .next s)

/-! ### Memory and registers -/

/-- R72 and R9: the range check of the memory primitives is on the exact integer. -/
def Obligations.MemoryRangeCheck : Prop :=
  ∀ (s : State) (addr : Int) (v : Byte),
    (0 ≤ addr ∧ addr ≤ 255 →
      memRead s addr = .ok (s.mem.read addr.toNat) ∧
      memWrite s addr v = .ok { s with mem := s.mem.write addr.toNat v }) ∧
    (addr < 0 ∨ 255 < addr →
      memRead s addr = .error (.outOfRange addr) ∧ memWrite s addr v = .error (.outOfRange addr))

/-- R75 and R81: a write changes exactly the byte addressed, and a read gives the most recent write. That it
keeps the canonical form is about the model's representation (log entry 12). -/
def Obligations.WriteChangesOneByte : Prop :=
  ∀ (m : Memory) (a : Nat) (v : Byte), m.wf = true → a < 256 →
    (m.write a v).wf = true ∧ ∀ b : Nat, (m.write a v).read b = if b = a then v else m.read b

/-- The model's representation is canonical: memories that read the same everywhere are the same list, so
equal states are equal data (10_state.md, R49; the representation is the model's, log entry 12). -/
def Obligations.EqualReadsEqualMemories : Prop :=
  ∀ m n : Memory, m.wf = true → n.wf = true → (∀ a : Nat, m.read a = n.read a) → m = n

/-- R31 and R33: register access by index; an index outside 0..7 raises `InvalidRegister` and touches
nothing, and a register write moves neither `sp` nor any other register. -/
def Obligations.RegisterIndexCheck : Prop :=
  ∀ (s : State) (r v : Byte),
    (∀ _ : r.toNat < 8,
      readReg s r = .ok s.x[r.toNat] ∧
      ∃ x, writeReg s r v = .ok x ∧ x[r.toNat] = v ∧
        ∀ (k : Nat) (_ : k < 8), k ≠ r.toNat → x[k] = s.x[k]) ∧
    (8 ≤ r.toNat →
      readReg s r = .error (.invalidRegister r) ∧ writeReg s r v = .error (.invalidRegister r))

/-! ### The ALU block -/

/-- R172, R175, R178, R181, R184 and R186, with the selectors of R170: results, flags and errors of the ALU
block; CMP gives exactly one flag, the true unsigned relation of its operands. That an output whose enable is 0
is absent is the model's choice (log entry 14). -/
def Obligations.AluResults : Prop :=
  ∀ a b : Byte,
    alu 0 a b = { result := some (BitVec.ofNat 8 ((a.toNat + b.toNat) % 256)), fl := none, err := none } ∧
    alu 1 a b = { result := some (BitVec.ofNat 8 ((a.toNat + 256 - b.toNat) % 256)), fl := none, err := none } ∧
    alu 2 a b = { result := some (BitVec.ofNat 8 ((a.toNat * b.toNat) % 256)), fl := none, err := none } ∧
    (b.toNat = 0 → alu 3 a b = { result := none, fl := none, err := some .divisionByZero }) ∧
    (b.toNat ≠ 0 →
      alu 3 a b = { result := some (BitVec.ofNat 8 (a.toNat / b.toNat)), fl := none, err := none }) ∧
    (∀ sel : BitVec 3, sel = 4 ∨ sel = 5 ∨ sel = 6 →
      alu sel a b = { result := none, fl := none, err := some .unsupportedOperation }) ∧
    (a.toNat < b.toNat → alu 7 a b = { result := none, fl := some 0b100, err := none }) ∧
    (b.toNat < a.toNat → alu 7 a b = { result := none, fl := some 0b010, err := none }) ∧
    (a = b → alu 7 a b = { result := none, fl := some 0b001, err := none })

/-! ### Encoding -/

/-- R106, R108 and R112: the rows of the opcode table, SUB and DIV only with `EXPOSE_SUB_DIV`; in every row
`w[7:6]` is the operand count and `w[4]` the sets-PC flag, and no two rows share a word. -/
def Obligations.OpcodeTableRows : Prop :=
  opcodeTable Config.hardware =
    [⟨0x01, .hlt, 0, false⟩, ⟨0x11, .ret, 0, true⟩, ⟨0x45, .push, 1, false⟩, ⟨0x46, .pop, 1, false⟩,
     ⟨0x47, .prn, 1, false⟩, ⟨0x50, .call, 1, true⟩, ⟨0x54, .jmp, 1, true⟩, ⟨0x55, .jeq, 1, true⟩,
     ⟨0x56, .jne, 1, true⟩, ⟨0x82, .ldi, 2, false⟩, ⟨0xA0, .add, 2, false⟩, ⟨0xA2, .mul, 2, false⟩,
     ⟨0xA7, .cmp, 2, false⟩] ∧
  opcodeTable Config.fullTable =
    opcodeTable Config.hardware ++ [⟨0xA1, .sub, 2, false⟩, ⟨0xA3, .div, 2, false⟩] ∧
  (∀ op : Op, op ∈ [Op.hlt, .ret] → wordCount (defaultOpcodes.word op) = 0) ∧
  (∀ op : Op, op ∈ [Op.push, .pop, .prn, .call, .jmp, .jeq, .jne] → wordCount (defaultOpcodes.word op) = 1) ∧
  (∀ op : Op, op ∈ [Op.ldi, .add, .mul, .cmp, .sub, .div] → wordCount (defaultOpcodes.word op) = 2) ∧
  (∀ op : Op, wordCount (defaultOpcodes.word op) = op.operands) ∧
  (∀ op : Op, wordSetsPc (defaultOpcodes.word op) = op.setsPc) ∧
  (∀ op : Op, op.setsPc = true ↔ op ∈ [Op.ret, .call, .jmp, .jeq, .jne]) ∧
  (∀ op op' : Op, defaultOpcodes.word op = defaultOpcodes.word op' → op = op')

/-- R107 and R149: under every legal map the lookup finds exactly the table's words, and the metadata it
gives is what the word's own bits say. -/
def Obligations.LookupIsTheTable : Prop :=
  ∀ (c : Config) (w : Byte), c.opcodes.legal = true →
    (lookup c w = none ↔ ∀ op : Op, c.hasRow op = true → c.opcodes.word op ≠ w) ∧
    (∀ op : Op, c.hasRow op = true → c.opcodes.word op = w → lookup c w = some (c.row op)) ∧
    ∀ row : OpRow, lookup c w = some row →
      row.word = w ∧ c.hasRow row.op = true ∧ row.operands = wordCount w ∧ row.setsPc = wordSetsPc w

/-- R100 and R111: an instruction is 1, 2 or 3 bytes long, `1 + w[7:6]`, known from the opcode word alone. -/
def Obligations.LengthFromOpcodeWord : Prop :=
  ∀ (c : Config) (w : Byte) (rest rest' : List Byte) (i : Instr), c.opcodes.legal = true →
    decode c (w :: rest) = .ok (i, rest') →
      wordCount w ≤ 2 ∧ rest' = rest.drop (wordCount w) ∧ (encode c i).length = 1 + wordCount w

/-- R109: which words are unrecognized on this hardware, how many there are, and that each is an orderly
stop (R143), not a fault: no operand is read and only `run` and the stop record change. -/
def Obligations.UnrecognizedWordsStop : Prop :=
  ((List.range 256).countP (fun w => (lookup Config.hardware (BitVec.ofNat 8 w)).isNone)) = 243 ∧
  ((List.range 256).countP (fun w => (lookup Config.fullTable (BitVec.ofNat 8 w)).isNone)) = 241 ∧
  (∀ (c : Config) (w : Byte), c.opcodes.legal = true → wordCount w = 3 → lookup c w = none) ∧
  lookup Config.fullTable 0x00 = none ∧ lookup Config.fullTable 0xFF = none ∧
  StopCause.unrecognizedOpcode.code = 2 ∧ StopPhase.decode.code = 1 ∧
  ∀ s : State, s.run = .running → s.pc.toNat ≤ 255 → lookup s.cfg (s.mem.read s.pc.toNat) = none →
    step s = .next (haltOf s .unrecognizedOpcode .decode s.pc (s.mem.read s.pc.toNat))

/-- Words written out from the encodings of R103 and R106 decode to the instructions they stand for, one
or more of every format. -/
def Obligations.SampleWordsDecode : Prop :=
  decode Config.hardware [0b00000001] = .ok (.hlt, []) ∧
  decode Config.hardware [0b00010001] = .ok (.ret, []) ∧
  decode Config.hardware [0b01000101, 0b00000111] = .ok (.push 7, []) ∧
  decode Config.hardware [0b01000111, 0b00000011, 0b00000001] = .ok (.prn 3, [0b00000001]) ∧
  decode Config.hardware [0b01010000, 0b00000001] = .ok (.call 1, []) ∧
  decode Config.hardware [0b10000010, 0b00000000, 0b00001000] = .ok (.ldi 0 8, []) ∧
  decode Config.hardware [0b10100000, 0b00000101, 0b00000110] = .ok (.add 5 6, []) ∧
  decode Config.hardware [0b10100111, 0b00001001, 0b11111111] = .ok (.cmp 9 255, []) ∧
  decode Config.hardware [0b10100001, 0b00000000, 0b00000001] = .error (.unrecognized 0b10100001) ∧
  decode Config.fullTable [0b10100011, 0b00000000, 0b00000001] = .ok (.div 0 1, []) ∧
  decode Config.hardware [0b10100000, 0b00000101] = .error (.truncated 0b10100000 [0b00000101])

/-- Decoding the encoding of a well-formed instruction gives it back, with every operand byte and whatever
follows, under every legal opcode map (R102 to R107). -/
def Obligations.DecodeInvertsEncode : Prop :=
  ∀ (c : Config) (i : Instr) (rest : List Byte), c.opcodes.legal = true → i.wf c = true →
    decode c (encode c i ++ rest) = .ok (i, rest)

/-- What decodes is an encoding: the bytes taken are the instruction's own, and it is well formed (R107,
R110). -/
def Obligations.EncodeInvertsDecode : Prop :=
  ∀ (c : Config) (bytes rest : List Byte) (i : Instr),
    decode c bytes = .ok (i, rest) → encode c i ++ rest = bytes ∧ i.wf c = true

/-- R120 and R122: the assembly line of an instruction with registers 0..7 assembles to that one
instruction (the blanks a line admits are the model's choice, log entry 11). -/
def Obligations.AssembleInvertsSpell : Prop :=
  ∀ i : Instr, i.spellable = true → assemble (spell i) = some i

/-! ### The step -/

/-- R141: an opcode fetch from above 255 faults in phase 0 and changes nothing but `run` and the record. -/
def Obligations.OpcodeFetchOutOfRange : Prop :=
  ∀ s : State, s.run = .running → 255 < s.pc.toNat →
    step s = .next (faultOf s .outOfRange .opcodeFetch 0 0 0 0 s.pc.toNat)

/-- R144: exactly the row's operand bytes are read, in order; the first one past 255 faults in phase 2 with
the operands already read in the record. -/
def Obligations.OperandFetchReadsRowCount : Prop :=
  ∀ (s : State) (row : OpRow), s.run = .running → s.pc.toNat ≤ 255 → s.cfg.opcodes.legal = true →
    lookup s.cfg (s.mem.read s.pc.toNat) = some row →
    (s.pc.toNat + wordCount (s.mem.read s.pc.toNat) ≤ 255 →
      step s = exec (row.op.build (s.mem.read (s.pc.toNat + 1)) (s.mem.read (s.pc.toNat + 2))) s) ∧
    (255 < s.pc.toNat + wordCount (s.mem.read s.pc.toNat) →
      step s = .next (faultOf s .outOfRange .operandFetch (s.mem.read s.pc.toNat) (255 - s.pc.toNat)
        (if s.pc.toNat = 255 then 0 else s.mem.read 255) 0 256))

/-- A step of a Running core is exec of the instruction whose bytes stand at `pc`: nothing is added around
it (R145, R147; the PC advance is exec's). -/
def Obligations.StepRunsDecodedInstruction : Prop :=
  (∀ (s : State) (i : Instr) (rest : List Byte), s.run = .running →
    decode s.cfg (bytesFrom s.mem s.pc.toNat) = .ok (i, rest) → step s = exec i s) ∧
  (∀ (s : State) (i : Instr), s.run = .running → s.cfg.opcodes.legal = true → i.wf s.cfg = true →
    (∀ (k : Nat) (_ : k < (encode s.cfg i).length),
      s.pc.toNat + k ≤ 255 ∧ s.mem.read (s.pc.toNat + k) = (encode s.cfg i)[k]) →
    step s = exec i s)

/-- No state stops the model: a step and every instruction answer a next state in every state. R270 and R276
make an error an entry into a state of the core; that the model answers that state as a next state is its choice
(log entry 2), and so is a grant outside Running answering the same state (log entry 1). -/
def Obligations.EveryStepAnswersNext : Prop :=
  (∀ s : State, ∃ t, step s = .next t) ∧ (∀ (i : Instr) (s : State), ∃ t, exec i s = .next t)

/-- R142 with R148: a completed step of an instruction that does not set the PC advances `pc` by its
length, exactly, without wrapping. -/
def Obligations.PcAdvancesByLength : Prop :=
  ∀ (s t : State) (i : Instr), s.run = .running → fetch s = .instr i → step s = .next t →
    t.run ≠ .faulted → i.op.setsPc = false → t.pc.toNat = s.pc.toNat + i.op.operands + 1

/-! ### HLT, LDI, PRN -/

/-- R200: HLT advances `pc` by 1, halts with cause 1, and changes nothing else. -/
def Obligations.HltHaltsAfterAdvance : Prop :=
  encode Config.hardware .hlt = [0b00000001] ∧
  StopCause.hltExecuted.code = 1 ∧ StopPhase.execute.code = 3 ∧
  ∀ s : State, exec .hlt s =
    .next (haltOf { s with pc := pcPlus s 1 } .hltExecuted .execute s.pc s.cfg.opcodes.hlt)

/-- R204: LDI. -/
def Obligations.LdiLoadsImmediate : Prop :=
  (∀ r imm8 : Byte, encode Config.hardware (.ldi r imm8) = [0b10000010, r, imm8]) ∧
  (∀ (s : State) (r imm8 : Byte) (_ : r.toNat < 8),
    exec (.ldi r imm8) s = .next { s with x := s.x.set r.toNat imm8, pc := pcPlus s 3 }) ∧
  (∀ (s : State) (r imm8 : Byte), 8 ≤ r.toNat →
    exec (.ldi r imm8) s = .next (execFault s (.ldi r imm8) .invalidRegister r.toNat)) ∧
  OperandFetchFaults .ldi

/-- R207: PRN. -/
def Obligations.PrnEmitsRegister : Prop :=
  (∀ r : Byte, encode Config.hardware (.prn r) = [0b01000111, r]) ∧
  (∀ (s : State) (r : Byte) (_ : r.toNat < 8),
    exec (.prn r) s = .next { s with output := s.output ++ [s.x[r.toNat]], pc := pcPlus s 2 }) ∧
  RegisterChecked .prn ∧ OperandFetchFaults .prn

/-- R208: LDI followed by PRN of the same register emits the immediate. -/
def Obligations.LdiThenPrnEmitsImmediate : Prop :=
  ∀ (s : State) (r v : Byte), r.toNat < 8 →
    ∃ t u, exec (.ldi r v) s = .next t ∧ exec (.prn r) t = .next u ∧
      u.output = s.output ++ [v] ∧ outEvent t u = some v ∧ u.run = s.run

/-! ### The stack -/

/-- R221: PUSH, for every `sp` in its range 0..256 (R39). -/
def Obligations.PushStoresBelowSp : Prop :=
  (∀ r : Byte, encode Config.hardware (.push r) = [0b01000101, r]) ∧
  (∀ (s : State) (r : Byte) (_ : r.toNat < 8), 0 < s.sp.toNat → s.sp.toNat ≤ 256 →
    exec (.push r) s = .next { s with
      mem := s.mem.write (s.sp.toNat - 1) s.x[r.toNat]
      sp := BitVec.ofNat 9 (s.sp.toNat - 1)
      pc := pcPlus s 2 }) ∧
  (∀ (s : State) (r : Byte), r.toNat < 8 → s.sp.toNat = 0 →
    exec (.push r) s = .next (execFault s (.push r) .outOfRange (-1))) ∧
  RegisterChecked .push ∧ OperandFetchFaults .push

/-- R224: POP. -/
def Obligations.PopLoadsFromSp : Prop :=
  (∀ r : Byte, encode Config.hardware (.pop r) = [0b01000110, r]) ∧
  (∀ (s : State) (r : Byte) (_ : r.toNat < 8), s.sp.toNat ≤ 255 →
    exec (.pop r) s = .next { s with
      x := s.x.set r.toNat (s.mem.read s.sp.toNat)
      sp := BitVec.ofNat 9 (s.sp.toNat + 1)
      pc := pcPlus s 2 }) ∧
  (∀ (s : State) (r : Byte), r.toNat < 8 → 255 < s.sp.toNat →
    exec (.pop r) s = .next (execFault s (.pop r) .outOfRange s.sp.toNat)) ∧
  RegisterChecked .pop ∧ OperandFetchFaults .pop

/-- R226: after a PUSH that completes, POP of the same register completes and restores the register and
`sp`; the byte at the old `sp - 1` keeps the pushed value. The premise of canonical memory is the model's
(log entry 12). -/
def Obligations.PopUndoesPush : Prop :=
  ∀ (s t : State) (r : Byte) (_ : r.toNat < 8), s.run = .running → s.mem.wf = true → s.sp.toNat ≤ 256 →
    exec (.push r) s = .next t → t.run ≠ .faulted →
    ∃ u, exec (.pop r) t = .next u ∧ u.run = .running ∧ u.x = s.x ∧ u.sp = s.sp ∧
      u.mem.read (s.sp.toNat - 1) = s.x[r.toNat]

/-! ### Control transfer -/

/-- R241: CALL, for every `sp` in its range 0..256: the push address is checked before the return
address. -/
def Obligations.CallPushesReturnAddress : Prop :=
  (∀ r : Byte, encode Config.hardware (.call r) = [0b01010000, r]) ∧
  (∀ (s : State) (r : Byte) (_ : r.toNat < 8), 0 < s.sp.toNat → s.sp.toNat ≤ 256 → s.pc.toNat ≤ 253 →
    exec (.call r) s = .next { s with
      mem := s.mem.write (s.sp.toNat - 1) (BitVec.ofNat 8 (s.pc.toNat + 2))
      sp := BitVec.ofNat 9 (s.sp.toNat - 1)
      pc := BitVec.ofNat 9 s.x[r.toNat].toNat }) ∧
  (∀ (s : State) (r : Byte), r.toNat < 8 → s.sp.toNat = 0 →
    exec (.call r) s = .next (execFault s (.call r) .outOfRange (-1))) ∧
  (∀ (s : State) (r : Byte), r.toNat < 8 → 0 < s.sp.toNat → s.sp.toNat ≤ 256 → 253 < s.pc.toNat →
    exec (.call r) s = .next (execFault s (.call r) .outOfRange (s.pc.toNat + 2))) ∧
  RegisterChecked .call ∧ OperandFetchFaults .call

/-- R244: RET. -/
def Obligations.RetPopsPc : Prop :=
  encode Config.hardware .ret = [0b00010001] ∧
  (∀ s : State, s.sp.toNat ≤ 255 →
    exec .ret s = .next { s with
      pc := BitVec.ofNat 9 (s.mem.read s.sp.toNat).toNat
      sp := BitVec.ofNat 9 (s.sp.toNat + 1) }) ∧
  (∀ s : State, 255 < s.sp.toNat → exec .ret s = .next (execFault s .ret .outOfRange s.sp.toNat))

/-- R247: JMP. -/
def Obligations.JmpJumps : Prop :=
  (∀ r : Byte, encode Config.hardware (.jmp r) = [0b01010100, r]) ∧
  (∀ s : State, Jumps .jmp s) ∧ OperandFetchFaults .jmp

/-- R250: JEQ jumps when `FL.E` is 1; otherwise it falls through and checks no register. -/
def Obligations.JeqJumpsWhenEqual : Prop :=
  (∀ r : Byte, encode Config.hardware (.jeq r) = [0b01010101, r]) ∧
  (∀ s : State, s.fl.getLsbD 0 = true → Jumps .jeq s) ∧
  (∀ (s : State) (r : Byte), s.fl.getLsbD 0 = false →
    exec (.jeq r) s = .next { s with pc := pcPlus s 2 }) ∧
  OperandFetchFaults .jeq

/-- R253: JNE jumps when `FL.E` is 0; otherwise it falls through and checks no register. -/
def Obligations.JneJumpsWhenNotEqual : Prop :=
  (∀ r : Byte, encode Config.hardware (.jne r) = [0b01010110, r]) ∧
  (∀ s : State, s.fl.getLsbD 0 = false → Jumps .jne s) ∧
  (∀ (s : State) (r : Byte), s.fl.getLsbD 0 = true →
    exec (.jne r) s = .next { s with pc := pcPlus s 2 }) ∧
  OperandFetchFaults .jne

/-- R255: a RET in any later state whose `sp` and `mem[sp]` are as CALL left them resumes at `p + 2` with
`sp` as before the CALL. The premise of canonical memory is the model's (log entry 12). -/
def Obligations.RetResumesAfterCall : Prop :=
  ∀ (s t u : State) (r : Byte), s.run = .running → s.mem.wf = true → s.sp.toNat ≤ 256 →
    exec (.call r) s = .next t → t.run ≠ .faulted →
    u.sp = t.sp → u.mem.read u.sp.toNat = t.mem.read t.sp.toNat →
    ∃ v, exec .ret u = .next v ∧ v.run = u.run ∧ v.pc.toNat = s.pc.toNat + 2 ∧ v.sp = s.sp

/-- R256: after a CMP, JEQ and JNE go by whether the registers were equal. -/
def Obligations.BranchesFollowCompare : Prop :=
  ∀ (s : State) (ra rb r : Byte) (_ : ra.toNat < 8) (_ : rb.toNat < 8) (_ : r.toNat < 8),
    ∃ t, exec (.cmp ra rb) s = .next t ∧
      exec (.jeq r) t = .next { t with
        pc := if s.x[ra.toNat] = s.x[rb.toNat] then BitVec.ofNat 9 t.x[r.toNat].toNat else pcPlus t 2 } ∧
      exec (.jne r) t = .next { t with
        pc := if s.x[ra.toNat] = s.x[rb.toNat] then pcPlus t 2 else BitVec.ofNat 9 t.x[r.toNat].toNat }

/-! ### ALU instructions -/

/-- R171 and R188: ADD. -/
def Obligations.AddWritesSum : Prop :=
  AluInstrRule .add .add 0b10100000 (fun a b => (a + b) % 256)

/-- R174 and R188: MUL. -/
def Obligations.MulWritesProduct : Prop :=
  AluInstrRule .mul .mul 0b10100010 (fun a b => (a * b) % 256)

/-- R180 and R188: SUB, and its word unrecognized where SUB is not exposed (R112). That exec has SUB's effect
also in a state where it is not exposed, which no step reaches, is the model's choice (log entry 15). -/
def Obligations.SubWritesDifference : Prop :=
  AluInstrRule .sub .sub 0b10100001 (fun a b => (a + 256 - b) % 256) ∧ UnrecognizedWhenHidden .sub

/-- R183, R188 and R274: DIV, and its word unrecognized where DIV is not exposed (R112). That exec has DIV's
effect also in a state where it is not exposed, which no step reaches, is the model's choice (log entry 15). -/
def Obligations.DivWritesQuotient : Prop :=
  (∀ ra rb : Byte, encode Config.fullTable (.div ra rb) = [0b10100011, ra, rb]) ∧
  (∀ (s : State) (ra rb : Byte) (_ : ra.toNat < 8) (_ : rb.toNat < 8), s.x[rb.toNat].toNat ≠ 0 →
    exec (.div ra rb) s = .next { s with
      x := s.x.set ra.toNat (BitVec.ofNat 8 (s.x[ra.toNat].toNat / s.x[rb.toNat].toNat))
      pc := pcPlus s 3 }) ∧
  (∀ (s : State) (ra rb : Byte) (_ : ra.toNat < 8) (_ : rb.toNat < 8), s.x[rb.toNat].toNat = 0 →
    exec (.div ra rb) s = .next (execFault s (.div ra rb) .divisionByZero rb.toNat)) ∧
  RegistersChecked .div ∧ OperandFetchFaults .div ∧ UnrecognizedWhenHidden .div

/-- R177 and R188: CMP writes the flags and no register. -/
def Obligations.CmpWritesFlags : Prop :=
  (∀ ra rb : Byte, encode Config.hardware (.cmp ra rb) = [0b10100111, ra, rb]) ∧
  (∀ (s : State) (ra rb : Byte) (_ : ra.toNat < 8) (_ : rb.toNat < 8),
    exec (.cmp ra rb) s = .next { s with
      fl := if s.x[ra.toNat].toNat < s.x[rb.toNat].toNat then 0b100
            else if s.x[rb.toNat].toNat < s.x[ra.toNat].toNat then 0b010 else 0b001
      pc := pcPlus s 3 }) ∧
  RegistersChecked .cmp ∧ OperandFetchFaults .cmp

/-! ### Frames -/

/-- Frame of ADD, MUL, SUB, DIV, CMP and LDI: registers but the destination, flags but for CMP, `sp`, the
output, the configuration and all of memory are unchanged, on every operand (R32, R41, R71). -/
def Obligations.FrameAluAndLoad : Prop :=
  ∀ (i : Instr) (s t : State), i.op ∈ [Op.add, .mul, .sub, .div, .cmp, .ldi] → exec i s = .next t →
    KeepsRegisters i s t ∧ (i.op ≠ .cmp → t.fl = s.fl) ∧ t.sp = s.sp ∧ t.output = s.output ∧
    KeepsMemory s t ∧ KeepsRunUnlessFault s t

/-- Frame of PRN, HLT, JMP, JEQ and JNE: every register, the flags, `sp`, the configuration and all of
memory are unchanged; PRN alone emits, HLT alone stops in order (R32, R52, R71). -/
def Obligations.FrameOutputHaltJump : Prop :=
  ∀ (i : Instr) (s t : State), i.op ∈ [Op.prn, .hlt, .jmp, .jeq, .jne] → exec i s = .next t →
    KeepsRegisters i s t ∧ t.fl = s.fl ∧ t.sp = s.sp ∧ (i.op ≠ .prn → t.output = s.output) ∧
    KeepsMemory s t ∧ (i.op ≠ .hlt → KeepsRunUnlessFault s t)

/-- Frame of PUSH, POP, CALL and RET: registers but POP's destination, the flags, the output and the
configuration are unchanged; PUSH and CALL change no byte but the one at the push address, POP and RET
none; `sp`, which they do update, moves by 1 unless the instruction faults, and then not at all (R32, R39,
R71). -/
def Obligations.FrameStackAndCall : Prop :=
  ∀ (i : Instr) (s t : State), i.op ∈ [Op.push, .pop, .call, .ret] → exec i s = .next t →
    KeepsRegisters i s t ∧ t.fl = s.fl ∧ t.output = s.output ∧ KeepsRunUnlessFault s t ∧
    (i.op = .push ∨ i.op = .call → ∀ a : Nat, (a : Int) ≠ pushAddr s → t.mem.read a = s.mem.read a) ∧
    (i.op = .pop ∨ i.op = .ret → KeepsMemory s t) ∧
    (t.sp = s.sp ∨ t.sp.toNat + 1 = s.sp.toNat ∨ t.sp.toNat = s.sp.toNat + 1)

/-! ### Whole-machine rules -/

/-- R276: a step that ends Faulted changes nothing but `run` and the stop record, and the record holds the
address, the word and the operand bytes fetched before the error. -/
def Obligations.FatalErrorCommitsNothing : Prop :=
  ∀ s t : State, s.run = .running → step s = .next t → t.run = .faulted →
    t = { s with run := .faulted, stop := t.stop } ∧
    t.stop.pc = s.pc ∧ t.stop.phase ≠ .decode ∧
    (t.stop.cause = .outOfRange ∨ t.stop.cause = .invalidRegister ∨ t.stop.cause = .divisionByZero) ∧
    t.stop.word = (if t.stop.phase = .opcodeFetch then 0 else s.mem.read s.pc.toNat) ∧
    t.stop.op1 = (if 1 ≤ t.stop.nops.toNat then s.mem.read (s.pc.toNat + 1) else 0) ∧
    t.stop.op2 = (if 2 ≤ t.stop.nops.toNat then s.mem.read (s.pc.toNat + 2) else 0)

/-- R44 and R46: a step leaves Running only by HLT or an unrecognized word, to Halted, or by a fatal error,
to Faulted, and writes the stop record only then. The codes of the run states, causes and phases are those
of R44, R271 and R45. -/
def Obligations.RunStateTransitions : Prop :=
  ([RunState.idle, .running, .halted, .faulted].map RunState.code = [0, 1, 2, 3]) ∧
  ([StopCause.none, .hltExecuted, .unrecognizedOpcode, .outOfRange, .invalidRegister, .divisionByZero,
    .unsupportedOperation].map StopCause.code = [0, 1, 2, 3, 4, 5, 6]) ∧
  ([StopPhase.opcodeFetch, .decode, .operandFetch, .execute].map StopPhase.code = [0, 1, 2, 3]) ∧
  ∀ s t : State, step s = .next t →
    (s.run ≠ .running → t = s) ∧
    (s.run = .running →
      (t.run = .running ∧ t.stop = s.stop) ∨
      (t.run = .halted ∧ t.stop.cause = .hltExecuted ∧ fetch s = .instr .hlt) ∨
      (t.run = .halted ∧ t.stop.cause = .unrecognizedOpcode ∧ ∃ w, fetch s = .unrecognized w) ∨
      (t.run = .faulted ∧ t.stop.cause ≠ .none ∧ t.stop.cause ≠ .hltExecuted ∧
        t.stop.cause ≠ .unrecognizedOpcode ∧ t.stop.cause ≠ .unsupportedOperation))

/-- R41: a step that changes `FL` is a CMP, and after a completed CMP exactly one of L, G and E is 1. -/
def Obligations.OnlyCmpWritesFlags : Prop :=
  (∀ s t : State, step s = .next t → t.fl ≠ s.fl → ∃ ra rb, fetch s = .instr (.cmp ra rb)) ∧
  (∀ (s t : State) (ra rb : Byte), ra.toNat < 8 → rb.toNat < 8 → exec (.cmp ra rb) s = .next t →
    (flagL t.fl = true ∧ flagG t.fl = false ∧ flagE t.fl = false) ∨
    (flagL t.fl = false ∧ flagG t.fl = true ∧ flagE t.fl = false) ∨
    (flagL t.fl = false ∧ flagG t.fl = false ∧ flagE t.fl = true))

/-- R42: only JEQ and JNE read `FL`, and of it only E. Two states that differ in `FL` alone, and not in E if
the instruction is JEQ or JNE, stay equal but for `FL` through any instruction; after a CMP that completes they
are equal in `FL` too, so the new flags owe nothing to the old. -/
def Obligations.FlagReadersReadOnlyE : Prop :=
  ∀ (i : Instr) (s t u : State) (f : FlagBits),
    (f.getLsbD 0 = s.fl.getLsbD 0 ∨ (i.op ≠ .jeq ∧ i.op ≠ .jne)) →
    exec i s = .next t → exec i { s with fl := f } = .next u →
    (i.op ≠ .cmp → u = { t with fl := f }) ∧
    ∀ ra rb : Byte, i = .cmp ra rb →
      (ra.toNat < 8 ∧ rb.toNat < 8 → u = t) ∧ (8 ≤ ra.toNat ∨ 8 ≤ rb.toNat → u = { t with fl := f })

/-- R39: `sp` moves only in a PUSH or CALL, down by 1, or a POP or RET, up by 1. -/
def Obligations.OnlyStackOpsMoveSp : Prop :=
  ∀ s t : State, step s = .next t → t.sp ≠ s.sp →
    ∃ i, fetch s = .instr i ∧
      ((i.op = .push ∨ i.op = .call) ∧ t.sp.toNat + 1 = s.sp.toNat ∨
       (i.op = .pop ∨ i.op = .ret) ∧ t.sp.toNat = s.sp.toNat + 1)

/-- R52: a step appends to the output only by PRN, one event with the byte of the register it names. -/
def Obligations.OnlyPrnEmits : Prop :=
  (∀ s t : State, step s = .next t → t.output ≠ s.output →
    ∃ (r : Byte) (_ : r.toNat < 8),
      fetch s = .instr (.prn r) ∧ t.output = s.output ++ [s.x[r.toNat]]) ∧
  (∀ s : State, (hostReset s).output = [])

/-- R301 and R52: no host action takes back an event already emitted, reset included (the list of events
the host holds is the model's, log entry 9). -/
def Obligations.EmittedEventsStayEmitted : Prop :=
  ∀ (a : HostAction) (w v : Session), Session.apply a w = .next v →
    ∃ more, v.emitted = w.emitted ++ more

/-- R85: the byte PUSH or CALL stores is what the next fetch from that address reads; a HLT word pushed onto
the next instruction's address is the instruction executed next. The premise of canonical memory is the model's
(log entry 12). -/
def Obligations.StoredByteIsFetchedNext : Prop :=
  (∀ (s t : State) (r : Byte) (_ : r.toNat < 8), s.run = .running → s.mem.wf = true →
    s.sp.toNat ≤ 256 → exec (.push r) s = .next t → t.run ≠ .faulted →
    memRead t (pushAddr s) = .ok s.x[r.toNat]) ∧
  (∀ (s t : State) (r : Byte), s.run = .running → s.mem.wf = true →
    s.sp.toNat ≤ 256 → exec (.call r) s = .next t → t.run ≠ .faulted →
    memRead t (pushAddr s) = .ok (BitVec.ofNat 8 (s.pc.toNat + 2))) ∧
  (∀ (s t : State) (r : Byte) (_ : r.toNat < 8), s.run = .running → s.mem.wf = true →
    s.sp.toNat ≤ 256 → s.cfg.opcodes.legal = true → exec (.push r) s = .next t → t.run ≠ .faulted →
    (s.pc.toNat : Int) + 2 = pushAddr s → s.x[r.toNat] = s.cfg.opcodes.hlt → step t = exec .hlt t)

/-- R150: a JMP to its own address, in a core that fetches it there, leaves the state as it is for any
number of step grants: such a run never ends (R247). -/
def Obligations.JmpToItselfNeverStops : Prop :=
  ∀ (s : State) (r : Byte) (_ : r.toNat < 8), WordAtPc s .jmp → s.pc.toNat + 1 ≤ 255 →
    s.mem.read (s.pc.toNat + 1) = r → s.x[r.toNat].toNat = s.pc.toNat →
    ∀ k : Nat, stepsFrom k s = .next s

/-! ### The Loader -/

/-- R307 and R121: a file of 1 to 256 lines of 8-bit binary literals loads as those bytes; no longer file is
accepted; every accepted image has 1 to 256 bytes; and on a refusal the core is reset and not started. The
refusal of an empty file, and that a refused file leaves no byte in memory, are the model's choice (log entry
10). -/
def Obligations.LoaderAcceptsImages : Prop :=
  (∀ image : List Byte, 1 ≤ image.length → image.length ≤ 256 →
    parseProgram (image.map byteLine) = .ok image) ∧
  (∀ image : List Byte, 256 < image.length →
    parseProgram (image.map byteLine) = .error (.imageTooLong image.length)) ∧
  (∀ (lines : List (List Char)) (image : List Byte), parseProgram lines = .ok image →
    1 ≤ image.length ∧ image.length ≤ 256) ∧
  (∀ (lines : List (List Char)) (e : LoadError) (s : State), parseProgram lines = .error e →
    bootProgram lines s = hostReset s ∧ (bootProgram lines s).run = .idle)

/-! ### The invariant -/

/-- The invariant holds after reset, for every legal configuration and for this hardware's (R300). The
canonical form of memory in it is the model's (log entry 12). -/
def Obligations.InvariantAtReset : Prop :=
  State.reset.Inv ∧ ∀ c : Config, c.wf = true → (State.resetWith c).Inv

/-- Every step keeps the invariant: memory canonical, `sp` and `pc` in 0..256, `FL` clear or one bit, the
stop record in agreement with the run state, the configuration legal (R35, R39, R41, R46). The bound 256
on `pc` is the note on vector D-7 (95_test_vectors.md), tighter than R35's 258 (log entry 8); the canonical form
is the model's (log entry 12). -/
def Obligations.StepKeepsInvariant : Prop :=
  ∀ s t : State, s.Inv → step s = .next t → t.Inv

/-- Every host action keeps the invariant (R308): its canonical form of memory is the model's (log entry 12),
its bound on `pc` the note on vector D-7 (log entry 8). -/
def Obligations.HostActionsKeepInvariant : Prop :=
  ∀ (a : HostAction) (s t : State), s.Inv → hostApply a s = .next t → t.Inv

/-- Every state of every run (R150), of any image booted in the order of R309 on any legal configuration, meets
the invariant. That every grant answers a next state, so that no run is cut short, is the model's choice (log
entries 1 and 2); of the invariant, the canonical form is the model's (log entry 12) and the bound on `pc` the
note on vector D-7 (log entry 8). -/
def Obligations.EveryRunKeepsInvariant : Prop :=
  ∀ (c : Config) (image : List Byte) (k : Nat), c.wf = true → image.length ≤ 256 →
    ∃ t, stepsFrom k (boot image (State.resetWith c)) = .next t ∧ t.Inv

/-! ### Running a table word -/

/-- What `withFetchWord` places is what the next step runs, in any state with canonical memory (the model's
own, log entries 4 and 5). -/
def Obligations.PlacedWordRunsNext : Prop :=
  ∀ (s : State) (nbits w : Nat) (i : Instr), s.mem.wf = true → decodeTableWord nbits w = some i →
    step (s.withFetchWord nbits w) = exec i (s.withFetchWord nbits w)
end

