-- ==== Sys2Proof/Laws/Decode.lean ====
section
/-! SUPPORT. The table, the decoder's parts and the fetch unit (30_encoding.md R106 to R108; 40_dispatch.md
R144). -/

namespace Sys2Proof

/-- A row the lookup gives is the table's own row of its instruction, exposed, under the word looked up. -/
theorem lookup_some {c : Config} {w : Byte} {row : OpRow} (h : lookup c w = some row) :
    row = c.row row.op ∧ c.hasRow row.op = true ∧ c.opcodes.word row.op = w := by
  have hm := List.mem_of_find?_eq_some h
  have hp := List.find?_some h
  simp only [opcodeTable, List.mem_map, List.mem_filter] at hm
  obtain ⟨op, ⟨_, hop⟩, rfl⟩ := hm
  exact ⟨rfl, hop, by simpa [Config.row] using hp⟩

theorem Op.mem_all (op : Op) : op ∈ Op.all := by cases op <;> decide

/-- A word given to a row that the table has is found. -/
theorem lookup_isSome {c : Config} {op : Op} (h : c.hasRow op = true) :
    (lookup c (c.opcodes.word op)).isSome = true := by
  simp only [lookup, List.find?_isSome]
  exact ⟨c.row op, List.mem_map_of_mem (List.mem_filter.mpr ⟨op.mem_all, h⟩), by simp [Config.row]⟩

/-- In a legal map a row's word carries the row's metadata (R108). -/
theorem legal_word {m : OpcodeMap} (h : m.legal = true) (op : Op) :
    wordCount (m.word op) = op.operands ∧ wordSetsPc (m.word op) = op.setsPc := by
  simp only [OpcodeMap.legal, Bool.and_eq_true, List.all_eq_true] at h
  simpa using h.1 op op.mem_all

/-- In a legal map no two rows share a word (R108). -/
theorem legal_injective {m : OpcodeMap} (h : m.legal = true) {op op' : Op}
    (e : m.word op = m.word op') : op = op' := by
  simp only [OpcodeMap.legal, Bool.and_eq_true, decide_eq_true_eq] at h
  exact List.inj_on_of_nodup_map h.2 op.mem_all op'.mem_all e

/-- What a successful decode says: the row found, the operand bytes there, the instruction and the rest. -/
theorem decode_cons_ok {c : Config} {w : Byte} {rest rest' : List Byte} {i : Instr}
    (h : decode c (w :: rest) = .ok (i, rest')) :
    ∃ row, lookup c w = some row ∧ row.operands ≤ rest.length ∧
      i = row.op.build (rest.getD 0 0) (rest.getD 1 0) ∧ rest' = rest.drop row.operands := by
  simp only [decode] at h
  split at h
  · cases h
  · rename_i row hl
    split at h
    · cases h
    · cases h; exact ⟨row, hl, by omega, rfl, rfl⟩

/-- Building an instruction from its row and its own operand bytes gives it back. -/
theorem build_operandBytes (i : Instr) (rest : List Byte) :
    i.op.build ((i.operandBytes ++ rest).getD 0 0) ((i.operandBytes ++ rest).getD 1 0) = i := by
  cases i <;> rfl

/-- The instruction a row builds belongs to that row. -/
@[simp] theorem op_build (op : Op) (a b : Byte) : (op.build a b).op = op := by cases op <;> rfl

/-- The operand bytes of an instruction are as many as its row says (R103, R106). -/
@[simp] theorem operandBytes_length (i : Instr) : i.operandBytes.length = i.op.operands := by
  cases i <;> rfl

/-- No instruction has more than two operand bytes (R6, R100). -/
theorem operands_le_two (op : Op) : op.operands ≤ 2 := by cases op <;> decide

namespace Machine

/-- Fetching operands that lie inside memory reads them in order (R144). -/
theorem fetchOperands_ok (s : State) (addr : Nat) : (n : Nat) → (got : List Byte) → addr + n ≤ 256 →
    fetchOperands s addr n got = .ok (got ++ (List.range' addr n).map s.mem.read)
  | 0, got, _ => by simp [fetchOperands]
  | n + 1, got, h => by
    have hr : memRead s (addr : Int) = .ok (s.mem.read addr) := by
      have : (0 : Int) ≤ addr ∧ (addr : Int) ≤ 255 := ⟨by omega, by omega⟩
      simp [memRead, checkRange, this, bind, Except.bind, pure, Except.pure]
    simp only [fetchOperands, hr]
    rw [fetchOperands_ok s (addr + 1) n (got ++ [s.mem.read addr]) (by omega)]
    simp [List.range'_succ]

end Machine

end Sys2Proof
end

