-- ==== Sys2Proof/Laws/Memory.lean ====
section
/-! SUPPORT. Memory: what a read gives after a write, and that a write keeps the canonical form
(20_memory.md R75, R81). -/

namespace Sys2Proof.Machine

@[simp] theorem Memory.read_nil (a : Nat) : Memory.read [] a = Memory.unlisted := rfl

theorem Memory.read_cons (k : Nat) (v : Byte) (m : Memory) (a : Nat) :
    Memory.read ((k, v) :: m) a = if k = a then v else m.read a := rfl

/-- In canonical form no cell lies below the first address allowed. -/
theorem Memory.read_of_lt {lo a : Nat} : {m : Memory} → m.wfFrom lo = true → a < lo →
    m.read a = Memory.unlisted
  | [], _, _ => rfl
  | (k, v) :: rest, h, ha => by
    simp only [Memory.wfFrom, Bool.and_eq_true, decide_eq_true_eq] at h
    rw [Memory.read_cons, if_neg (by omega), Memory.read_of_lt h.2 (by omega)]

/-- The canonical form from a higher address on is one from a lower address on. -/
theorem Memory.wfFrom_mono {lo hi : Nat} (hle : lo ≤ hi) : {m : Memory} → m.wfFrom hi = true →
    m.wfFrom lo = true
  | [], _ => rfl
  | (k, v) :: rest, h => by
    simp only [Memory.wfFrom, Bool.and_eq_true, decide_eq_true_eq] at h ⊢
    exact ⟨⟨⟨by omega, h.1.1.2⟩, h.1.2⟩, h.2⟩

/-- A write leaves every other address as it was, in any memory (R75). -/
theorem Memory.read_write_other {a a' : Nat} (h : a ≠ a') (b : Byte) : (m : Memory) →
    (m.write a b).read a' = m.read a'
  | [] => by
    by_cases hb : b = Memory.unlisted <;> simp [Memory.write, Memory.read_cons, hb, h]
  | (k, v) :: rest => by
    simp only [Memory.write]
    have ih := Memory.read_write_other h b rest
    split
    · split <;> simp [Memory.read_cons, h]
    · split
      · subst k
        split <;> simp [Memory.read_cons, h]
      · simp [Memory.read_cons, ih]

/-- A read after a write to the same address gives the byte written. -/
theorem Memory.read_write_same {lo : Nat} (a : Nat) (b : Byte) : (m : Memory) →
    m.wfFrom lo = true → (m.write a b).read a = b
  | [], _ => by
    by_cases hb : b = Memory.unlisted <;> simp [Memory.write, Memory.read_cons, hb]
  | (k, v) :: rest, h => by
    simp only [Memory.wfFrom, Bool.and_eq_true, decide_eq_true_eq] at h
    have ih := Memory.read_write_same a b rest h.2
    simp only [Memory.write]
    split
    · split
      · rw [Memory.read_cons, if_neg (by omega), Memory.read_of_lt h.2 (by omega)]; simp_all
      · simp [Memory.read_cons]
    · split
      · split
        · rw [Memory.read_of_lt h.2 (by omega)]; simp_all
        · simp [Memory.read_cons]
      · rw [Memory.read_cons, if_neg (by omega), ih]

/-- A write inside the address space keeps the canonical form. -/
theorem Memory.wfFrom_write {a : Nat} (ha : a < 256) (b : Byte) : {lo : Nat} → (m : Memory) → lo ≤ a →
    m.wfFrom lo = true → (m.write a b).wfFrom lo = true
  | lo, [], hlo, _ => by
    by_cases hb : b = Memory.unlisted <;> simp [Memory.write, Memory.wfFrom, hb, hlo, ha]
  | lo, (k, v) :: rest, hlo, h => by
    simp only [Memory.wfFrom, Bool.and_eq_true, decide_eq_true_eq] at h
    simp only [Memory.write]
    split
    · split <;> simp_all [Memory.wfFrom]
    · split
      · split
        · exact Memory.wfFrom_mono (by omega) h.2
        · simp_all [Memory.wfFrom]
      · have ih := Memory.wfFrom_write ha b (lo := k + 1) rest (by omega) h.2
        simp [Memory.wfFrom, h.1.1.1, h.1.1.2, h.1.2, ih]

theorem Memory.wf_write {m : Memory} (h : m.wf = true) {a : Nat} (ha : a < 256) (b : Byte) :
    (m.write a b).wf = true := Memory.wfFrom_write ha b m (Nat.zero_le a) h

/-- What reading any address gives after a write. -/
theorem Memory.read_write {m : Memory} (h : m.wf = true) (a a' : Nat) (b : Byte) :
    (m.write a b).read a' = if a = a' then b else m.read a' := by
  split
  · subst a'; exact Memory.read_write_same a b m h
  · exact Memory.read_write_other ‹_› b m

@[simp] theorem Memory.wf_nil : Memory.wf [] = true := rfl

/-- The memory State.reset has is canonical. -/
theorem reset_mem_wf : State.reset.mem.wf = true := rfl

end Sys2Proof.Machine
end

