-- ==== Sys2Proof/Laws/State.lean ====
section
/-! SUPPORT. Each state update seen through each field: the updated field has the new value, every other
field is as before. -/

namespace Sys2Proof.Machine

variable (s : State)

@[simp] theorem State.withX_x (v : Vector Byte 8) : (s.withX v).x = v := rfl
@[simp] theorem State.withX_pc (v : Vector Byte 8) : (s.withX v).pc = s.pc := rfl
@[simp] theorem State.withX_sp (v : Vector Byte 8) : (s.withX v).sp = s.sp := rfl
@[simp] theorem State.withX_fl (v : Vector Byte 8) : (s.withX v).fl = s.fl := rfl
@[simp] theorem State.withX_run (v : Vector Byte 8) : (s.withX v).run = s.run := rfl
@[simp] theorem State.withX_stop (v : Vector Byte 8) : (s.withX v).stop = s.stop := rfl
@[simp] theorem State.withX_mem (v : Vector Byte 8) : (s.withX v).mem = s.mem := rfl
@[simp] theorem State.withX_output (v : Vector Byte 8) : (s.withX v).output = s.output := rfl
@[simp] theorem State.withX_cfg (v : Vector Byte 8) : (s.withX v).cfg = s.cfg := rfl

@[simp] theorem State.withPc_x (v : Addr9) : (s.withPc v).x = s.x := rfl
@[simp] theorem State.withPc_pc (v : Addr9) : (s.withPc v).pc = v := rfl
@[simp] theorem State.withPc_sp (v : Addr9) : (s.withPc v).sp = s.sp := rfl
@[simp] theorem State.withPc_fl (v : Addr9) : (s.withPc v).fl = s.fl := rfl
@[simp] theorem State.withPc_run (v : Addr9) : (s.withPc v).run = s.run := rfl
@[simp] theorem State.withPc_stop (v : Addr9) : (s.withPc v).stop = s.stop := rfl
@[simp] theorem State.withPc_mem (v : Addr9) : (s.withPc v).mem = s.mem := rfl
@[simp] theorem State.withPc_output (v : Addr9) : (s.withPc v).output = s.output := rfl
@[simp] theorem State.withPc_cfg (v : Addr9) : (s.withPc v).cfg = s.cfg := rfl

@[simp] theorem State.withSp_x (v : Addr9) : (s.withSp v).x = s.x := rfl
@[simp] theorem State.withSp_pc (v : Addr9) : (s.withSp v).pc = s.pc := rfl
@[simp] theorem State.withSp_sp (v : Addr9) : (s.withSp v).sp = v := rfl
@[simp] theorem State.withSp_fl (v : Addr9) : (s.withSp v).fl = s.fl := rfl
@[simp] theorem State.withSp_run (v : Addr9) : (s.withSp v).run = s.run := rfl
@[simp] theorem State.withSp_stop (v : Addr9) : (s.withSp v).stop = s.stop := rfl
@[simp] theorem State.withSp_mem (v : Addr9) : (s.withSp v).mem = s.mem := rfl
@[simp] theorem State.withSp_output (v : Addr9) : (s.withSp v).output = s.output := rfl
@[simp] theorem State.withSp_cfg (v : Addr9) : (s.withSp v).cfg = s.cfg := rfl

@[simp] theorem State.withFl_x (v : FlagBits) : (s.withFl v).x = s.x := rfl
@[simp] theorem State.withFl_pc (v : FlagBits) : (s.withFl v).pc = s.pc := rfl
@[simp] theorem State.withFl_sp (v : FlagBits) : (s.withFl v).sp = s.sp := rfl
@[simp] theorem State.withFl_fl (v : FlagBits) : (s.withFl v).fl = v := rfl
@[simp] theorem State.withFl_run (v : FlagBits) : (s.withFl v).run = s.run := rfl
@[simp] theorem State.withFl_stop (v : FlagBits) : (s.withFl v).stop = s.stop := rfl
@[simp] theorem State.withFl_mem (v : FlagBits) : (s.withFl v).mem = s.mem := rfl
@[simp] theorem State.withFl_output (v : FlagBits) : (s.withFl v).output = s.output := rfl
@[simp] theorem State.withFl_cfg (v : FlagBits) : (s.withFl v).cfg = s.cfg := rfl

@[simp] theorem State.withMem_x (v : Memory) : (s.withMem v).x = s.x := rfl
@[simp] theorem State.withMem_pc (v : Memory) : (s.withMem v).pc = s.pc := rfl
@[simp] theorem State.withMem_sp (v : Memory) : (s.withMem v).sp = s.sp := rfl
@[simp] theorem State.withMem_fl (v : Memory) : (s.withMem v).fl = s.fl := rfl
@[simp] theorem State.withMem_run (v : Memory) : (s.withMem v).run = s.run := rfl
@[simp] theorem State.withMem_stop (v : Memory) : (s.withMem v).stop = s.stop := rfl
@[simp] theorem State.withMem_mem (v : Memory) : (s.withMem v).mem = v := rfl
@[simp] theorem State.withMem_output (v : Memory) : (s.withMem v).output = s.output := rfl
@[simp] theorem State.withMem_cfg (v : Memory) : (s.withMem v).cfg = s.cfg := rfl

@[simp] theorem State.emit_x (v : Byte) : (s.emit v).x = s.x := rfl
@[simp] theorem State.emit_pc (v : Byte) : (s.emit v).pc = s.pc := rfl
@[simp] theorem State.emit_sp (v : Byte) : (s.emit v).sp = s.sp := rfl
@[simp] theorem State.emit_fl (v : Byte) : (s.emit v).fl = s.fl := rfl
@[simp] theorem State.emit_run (v : Byte) : (s.emit v).run = s.run := rfl
@[simp] theorem State.emit_stop (v : Byte) : (s.emit v).stop = s.stop := rfl
@[simp] theorem State.emit_mem (v : Byte) : (s.emit v).mem = s.mem := rfl
@[simp] theorem State.emit_output (v : Byte) : (s.emit v).output = s.output ++ [v] := rfl
@[simp] theorem State.emit_cfg (v : Byte) : (s.emit v).cfg = s.cfg := rfl

@[simp] theorem State.stopped_x (r : RunState) (d : StopRecord) : (s.stopped r d).x = s.x := rfl
@[simp] theorem State.stopped_pc (r : RunState) (d : StopRecord) : (s.stopped r d).pc = s.pc := rfl
@[simp] theorem State.stopped_sp (r : RunState) (d : StopRecord) : (s.stopped r d).sp = s.sp := rfl
@[simp] theorem State.stopped_fl (r : RunState) (d : StopRecord) : (s.stopped r d).fl = s.fl := rfl
@[simp] theorem State.stopped_run (r : RunState) (d : StopRecord) : (s.stopped r d).run = r := rfl
@[simp] theorem State.stopped_stop (r : RunState) (d : StopRecord) : (s.stopped r d).stop = d := rfl
@[simp] theorem State.stopped_mem (r : RunState) (d : StopRecord) : (s.stopped r d).mem = s.mem := rfl
@[simp] theorem State.stopped_output (r : RunState) (d : StopRecord) : (s.stopped r d).output = s.output := rfl
@[simp] theorem State.stopped_cfg (r : RunState) (d : StopRecord) : (s.stopped r d).cfg = s.cfg := rfl

end Sys2Proof.Machine
end

