-- ==== Sys2Proof/Laws/Ops.lean ====
section
/-! SUPPORT. One lemma per shared operation: everything it can answer. -/

namespace Sys2Proof.Machine

/-! ### Registers and addresses -/

/-- Reading a register (R31). -/
theorem readReg_of_lt {s : State} {r : Byte} (h : r.toNat < 8) : readReg s r = .ok s.x[r.toNat] := by
  simp [readReg, h]

theorem readReg_of_ge {s : State} {r : Byte} (h : 8 ≤ r.toNat) :
    readReg s r = .error (.invalidRegister r) := by
  simp [readReg, Nat.not_lt.mpr h]

/-- Writing a register (R31). -/
theorem writeReg_of_lt {s : State} {r v : Byte} (h : r.toNat < 8) :
    writeReg s r v = .ok (s.x.set r.toNat v) := by
  simp [writeReg, h]

theorem writeReg_of_ge {s : State} {r v : Byte} (h : 8 ≤ r.toNat) :
    writeReg s r v = .error (.invalidRegister r) := by
  simp [writeReg, Nat.not_lt.mpr h]

theorem checkReg_of_lt {r : Byte} (h : r.toNat < 8) : checkReg r = .ok () := by
  simp [checkReg, h]

theorem checkReg_of_ge {r : Byte} (h : 8 ≤ r.toNat) : checkReg r = .error (.invalidRegister r) := by
  simp [checkReg, Nat.not_lt.mpr h]

/-- The range check (R72). -/
theorem checkRange_ok {addr : Int} (h : 0 ≤ addr ∧ addr ≤ 255) : checkRange addr = .ok () := by
  simp [checkRange, h]

theorem checkRange_error {addr : Int} (h : ¬ (0 ≤ addr ∧ addr ≤ 255)) :
    checkRange addr = .error (.outOfRange addr) := if_neg h

/-- Reading memory (R72). -/
theorem memRead_ok {s : State} {addr : Int} (h : 0 ≤ addr ∧ addr ≤ 255) :
    memRead s addr = .ok (s.mem.read addr.toNat) := by
  simp [memRead, checkRange_ok h, bind, Except.bind, pure, Except.pure]

theorem memRead_error {s : State} {addr : Int} (h : ¬ (0 ≤ addr ∧ addr ≤ 255)) :
    memRead s addr = .error (.outOfRange addr) := by
  simp [memRead, checkRange_error h, bind, Except.bind]

/-- Writing memory (R72). -/
theorem memWrite_ok {s : State} {addr : Int} {v : Byte} (h : 0 ≤ addr ∧ addr ≤ 255) :
    memWrite s addr v = .ok (s.withMem (s.mem.write addr.toNat v)) := by
  simp [memWrite, checkRange_ok h, bind, Except.bind, pure, Except.pure]

theorem memWrite_error {s : State} {addr : Int} {v : Byte} (h : ¬ (0 ≤ addr ∧ addr ≤ 255)) :
    memWrite s addr v = .error (.outOfRange addr) := by
  simp [memWrite, checkRange_error h, bind, Except.bind]

/-! ### The stack -/

/-- A push with `sp` in 1..256 stores at `sp - 1` and moves `sp` there (R220, R221). -/
theorem pushByte_ok {s : State} (v : Byte) (h0 : 0 < s.sp.toNat) (h1 : s.sp.toNat ≤ 256) :
    pushByte s v = .ok ((s.withMem (s.mem.write (s.sp.toNat - 1) v)).withSp
      (BitVec.ofNat 9 (s.sp.toNat - 1))) := by
  have e : pushAddr s = ((s.sp.toNat - 1 : Nat) : Int) := by simp only [pushAddr]; omega
  rw [pushByte, e, memWrite_ok ⟨by omega, by omega⟩]
  rfl

/-- A push with `sp` at 0 raises `OutOfRange(-1)` (R221, R272). -/
theorem pushByte_zero {s : State} (v : Byte) (h : s.sp.toNat = 0) :
    pushByte s v = .error (.outOfRange (-1)) := by
  have e : pushAddr s = -1 := by simp [pushAddr, h]
  rw [pushByte, e, memWrite_error (by omega)]
  rfl

/-- A pop with `sp` in 0..255 reads there and moves `sp` up by 1 (R220, R224). -/
theorem popByte_ok {s : State} (h : s.sp.toNat ≤ 255) :
    popByte s = .ok (s.mem.read s.sp.toNat, s.withSp (BitVec.ofNat 9 (s.sp.toNat + 1))) := by
  rw [popByte, memRead_ok ⟨by omega, by omega⟩]
  rfl

/-- A pop with `sp` above 255 raises `OutOfRange(sp)` (R224, R272). -/
theorem popByte_error {s : State} (h : 255 < s.sp.toNat) :
    popByte s = .error (.outOfRange s.sp.toNat) := by
  rw [popByte, memRead_error (by omega)]
  rfl

/-! ### Finishing an instruction -/

@[simp] theorem finish_ok (i : Instr) (s t : State) : finish i s (.ok t) = .next (commit i s t) := rfl

@[simp] theorem finish_error (i : Instr) (s : State) (e : CoreError) :
    finish i s (.error e) = .next (takeFault s e .execute (wordOf i s) i.operandBytes) := rfl

/-- What `finish` can answer: a commit or a fault, never a stop of the model. -/
theorem finish_cases (i : Instr) (s : State) (r : Exec State) :
    (∃ t, r = .ok t ∧ finish i s r = .next (commit i s t)) ∨
    (∃ e, r = .error e ∧
      finish i s r = .next (takeFault s e .execute (wordOf i s) i.operandBytes)) := by
  cases r with
  | ok t => exact .inl ⟨t, rfl, rfl⟩
  | error e => exact .inr ⟨e, rfl, rfl⟩

theorem commit_setsPc {i : Instr} {s t : State} (h : i.op.setsPc = true) : commit i s t = t := by
  simp [commit, h]

theorem commit_advances {i : Instr} {s t : State} (h : i.op.setsPc = false) :
    commit i s t = t.withPc (pcAfter s (i.op.operands + 1)) := by
  simp [commit, h]

/-- A commit changes no field but `pc` from the state with the writes made. -/
theorem commit_eq_withPc (i : Instr) (s t : State) : ∃ p, commit i s t = t.withPc p := by
  unfold commit
  split
  · exact ⟨t.pc, rfl⟩
  · exact ⟨_, rfl⟩

/-! ### The ALU -/

/-- The execute phase of an ALU instruction, in terms of the ALU's outputs (R170, R188). -/
theorem aluExec_cases (sel : BitVec 3) (ra rb : Byte) (s : State) :
    (8 ≤ ra.toNat ∧ aluExec sel ra rb s = .error (.invalidRegister ra)) ∨
    (ra.toNat < 8 ∧ 8 ≤ rb.toNat ∧ aluExec sel ra rb s = .error (.invalidRegister rb)) ∨
    (∃ (ha : ra.toNat < 8) (hb : rb.toNat < 8), aluExec sel ra rb s =
      match (alu sel s.x[ra.toNat] s.x[rb.toNat]).err with
      | some .divisionByZero => .error (.divisionByZero rb)
      | some .unsupportedOperation => .error (.unsupportedOperation sel)
      | none => aluWriteBack s ra (alu sel s.x[ra.toNat] s.x[rb.toNat])) := by
  by_cases ha : ra.toNat < 8
  · by_cases hb : rb.toNat < 8
    · refine .inr (.inr ⟨ha, hb, ?_⟩)
      simp only [aluExec, readReg_of_lt ha, readReg_of_lt hb, bind, Except.bind]
      split <;> simp_all [throw, throwThe, MonadExceptOf.throw]
    · refine .inr (.inl ⟨ha, by omega, ?_⟩)
      simp [aluExec, readReg_of_lt ha, readReg_of_ge (s := s) (Nat.not_lt.mp hb), bind, Except.bind]
  · refine .inl ⟨by omega, ?_⟩
    simp [aluExec, readReg_of_ge (s := s) (Nat.not_lt.mp ha), bind, Except.bind]

/-- The write-back of a result (R170). -/
theorem aluWriteBack_result {s : State} {ra v : Byte} (h : ra.toNat < 8) :
    aluWriteBack s ra { result := some v, fl := none, err := none } =
      .ok (s.withX (s.x.set ra.toNat v)) := by
  simp [aluWriteBack, writeResult, writeFlags, writeReg_of_lt h, bind, Except.bind, pure, Except.pure]

/-- The write-back of flags (R170). -/
theorem aluWriteBack_flags (s : State) (ra : Byte) (fl : FlagBits) :
    aluWriteBack s ra { result := none, fl := some fl, err := none } = .ok (s.withFl fl) := rfl

/-! ### Control transfer -/

theorem jumpTo_of_lt {r : Byte} {s : State} (h : r.toNat < 8) :
    jumpTo r s = .ok (s.withPc (zext9 s.x[r.toNat])) := by
  simp [jumpTo, readReg_of_lt h, bind, Except.bind, pure, Except.pure]

theorem jumpTo_of_ge {r : Byte} {s : State} (h : 8 ≤ r.toNat) :
    jumpTo r s = .error (.invalidRegister r) := by
  simp [jumpTo, readReg_of_ge (s := s) h, bind, Except.bind]

theorem branch_taken (r : Byte) (s : State) : branch true r s = jumpTo r s := rfl

theorem branch_not_taken (r : Byte) (s : State) : branch false r s = .ok (s.withPc (pcAfter s 2)) := rfl

@[simp] theorem zext9_toNat (v : Byte) : (zext9 v).toNat = v.toNat := by
  simp only [zext9, BitVec.toNat_setWidth]
  have := v.isLt
  omega

end Sys2Proof.Machine
end

