-- ==== Sys2Proof/Laws/Exec.lean ====
section
/-! SUPPORT. What an instruction and a fetch can do, said once: the provers' inversion lemmas. -/

namespace Sys2Proof.Machine

/-- The writes an instruction can make before the commit, `t` being the state with them made. -/
def Writes (i : Instr) (s t : State) : Prop :=
  match i with
  | .hlt => t = s
  | .ret => s.sp.toNat ≤ 255 ∧
      t = (s.withSp (BitVec.ofNat 9 (s.sp.toNat + 1))).withPc (zext9 (s.mem.read s.sp.toNat))
  | .push r => ∃ _ : r.toNat < 8, 0 < s.sp.toNat ∧ s.sp.toNat ≤ 256 ∧
      t = (s.withMem (s.mem.write (s.sp.toNat - 1) s.x[r.toNat])).withSp (BitVec.ofNat 9 (s.sp.toNat - 1))
  | .pop r => ∃ _ : r.toNat < 8, s.sp.toNat ≤ 255 ∧
      t = (s.withSp (BitVec.ofNat 9 (s.sp.toNat + 1))).withX (s.x.set r.toNat (s.mem.read s.sp.toNat))
  | .prn r => ∃ _ : r.toNat < 8, t = s.emit s.x[r.toNat]
  | .call r => ∃ _ : r.toNat < 8, 0 < s.sp.toNat ∧ s.sp.toNat ≤ 256 ∧ s.pc.toNat ≤ 253 ∧
      t = ((s.withMem (s.mem.write (s.sp.toNat - 1) (BitVec.ofNat 8 (s.pc.toNat + 2)))).withSp
        (BitVec.ofNat 9 (s.sp.toNat - 1))).withPc (zext9 s.x[r.toNat])
  | .jmp r => ∃ _ : r.toNat < 8, t = s.withPc (zext9 s.x[r.toNat])
  | .jeq r | .jne r =>
      (∃ _ : r.toNat < 8, t = s.withPc (zext9 s.x[r.toNat])) ∨ t = s.withPc (pcAfter s 2)
  | .ldi r imm8 => ∃ _ : r.toNat < 8, t = s.withX (s.x.set r.toNat imm8)
  | .add ra rb | .mul ra rb | .sub ra rb | .div ra rb =>
      ∃ (v : Byte) (_ : ra.toNat < 8), rb.toNat < 8 ∧ t = s.withX (s.x.set ra.toNat v)
  | .cmp ra rb => ∃ (_ : ra.toNat < 8) (_ : rb.toNat < 8),
      t = s.withFl (cmpFlags s.x[ra.toNat] s.x[rb.toNat])

/-- An error an instruction can raise: never `UnsupportedOperation` (R275). -/
def Raised (e : CoreError) : Prop := ∀ sel, e ≠ .unsupportedOperation sel

theorem raised_outOfRange (addr : Int) : Raised (.outOfRange addr) := by simp [Raised]

theorem raised_invalidRegister (r : Byte) : Raised (.invalidRegister r) := by simp [Raised]

/-- A push outside its range raises `OutOfRange`. -/
theorem pushByte_cases (s : State) (v : Byte) :
    (0 < s.sp.toNat ∧ s.sp.toNat ≤ 256 ∧ pushByte s v =
      .ok ((s.withMem (s.mem.write (s.sp.toNat - 1) v)).withSp (BitVec.ofNat 9 (s.sp.toNat - 1)))) ∨
    (¬ (0 ≤ pushAddr s ∧ pushAddr s ≤ 255) ∧ pushByte s v = .error (.outOfRange (pushAddr s))) := by
  by_cases h : 0 ≤ pushAddr s ∧ pushAddr s ≤ 255
  · have h0 : 0 < s.sp.toNat ∧ s.sp.toNat ≤ 256 := by simp only [pushAddr] at h; omega
    exact .inl ⟨h0.1, h0.2, pushByte_ok v h0.1 h0.2⟩
  · exact .inr ⟨h, by rw [pushByte, memWrite_error h]; rfl⟩

theorem popByte_cases (s : State) :
    (s.sp.toNat ≤ 255 ∧
      popByte s = .ok (s.mem.read s.sp.toNat, s.withSp (BitVec.ofNat 9 (s.sp.toNat + 1)))) ∨
    (255 < s.sp.toNat ∧ popByte s = .error (.outOfRange s.sp.toNat)) := by
  by_cases h : s.sp.toNat ≤ 255
  · exact .inl ⟨h, popByte_ok h⟩
  · exact .inr ⟨by omega, popByte_error (by omega)⟩

theorem jumpTo_cases (r : Byte) (s : State) :
    (∃ _ : r.toNat < 8, jumpTo r s = .ok (s.withPc (zext9 s.x[r.toNat]))) ∨
    (8 ≤ r.toNat ∧ jumpTo r s = .error (.invalidRegister r)) := by
  by_cases h : r.toNat < 8
  · exact .inl ⟨h, jumpTo_of_lt h⟩
  · exact .inr ⟨by omega, jumpTo_of_ge (by omega)⟩

/-- What the execute phase of an ALU instruction can answer. -/
theorem aluExec_result {sel : BitVec 3} (hsel : sel = selAdd ∨ sel = selSub ∨ sel = selMul ∨ sel = selDiv)
    (ra rb : Byte) (s : State) :
    (∃ e, Raised e ∧ aluExec sel ra rb s = .error e) ∨
    (∃ (v : Byte) (_ : ra.toNat < 8), rb.toNat < 8 ∧
      aluExec sel ra rb s = .ok (s.withX (s.x.set ra.toNat v))) := by
  rcases aluExec_cases sel ra rb s with ⟨_, h⟩ | ⟨_, _, h⟩ | ⟨ha, hb, h⟩
  · exact .inl ⟨_, by simp [Raised], h⟩
  · exact .inl ⟨_, by simp [Raised], h⟩
  · rw [h]
    rcases hsel with rfl | rfl | rfl | rfl
    · exact .inr ⟨_, ha, hb, aluWriteBack_result ha⟩
    · exact .inr ⟨_, ha, hb, aluWriteBack_result ha⟩
    · exact .inr ⟨_, ha, hb, aluWriteBack_result ha⟩
    · by_cases hz : s.x[rb.toNat].toNat = 0
      · exact .inl ⟨.divisionByZero rb, by simp [Raised], by simp [alu, selDiv, selAdd, selSub, selMul, hz]⟩
      · refine .inr ⟨BitVec.ofNat 8 (s.x[ra.toNat].toNat / s.x[rb.toNat].toNat), ha, hb, ?_⟩
        simp only [alu, hz, if_false]
        exact aluWriteBack_result ha

theorem aluExec_compare (ra rb : Byte) (s : State) :
    (∃ e, Raised e ∧ aluExec selCmp ra rb s = .error e) ∨
    (∃ (_ : ra.toNat < 8) (_ : rb.toNat < 8),
      aluExec selCmp ra rb s = .ok (s.withFl (cmpFlags s.x[ra.toNat] s.x[rb.toNat]))) := by
  rcases aluExec_cases selCmp ra rb s with ⟨_, h⟩ | ⟨_, _, h⟩ | ⟨ha, hb, h⟩
  · exact .inl ⟨_, by simp [Raised], h⟩
  · exact .inl ⟨_, by simp [Raised], h⟩
  · exact .inr ⟨ha, hb, h⟩

/-- What the execute phase behind `finish` did, when it is an error or its writes. -/
theorem finish_writes {i : Instr} {s : State} {r : Exec State} (hi : i ≠ .hlt)
    (h : (∃ e, Raised e ∧ r = .error e) ∨ ∃ t, Writes i s t ∧ r = .ok t) :
    (∃ e, Raised e ∧ finish i s r = .next (takeFault s e .execute (wordOf i s) i.operandBytes)) ∨
    (i ≠ .hlt ∧ ∃ t, Writes i s t ∧ finish i s r = .next (commit i s t)) := by
  rcases h with ⟨e, he, rfl⟩ | ⟨t, ht, rfl⟩
  · exact .inl ⟨e, he, rfl⟩
  · exact .inr ⟨hi, t, ht, rfl⟩

/-- Everything an instruction can do: take a fault that leaves all but `run` and the stop record, halt, or
make its writes and commit (R145, R146, R147). -/
theorem exec_cases (i : Instr) (s : State) :
    (∃ e, Raised e ∧ exec i s = .next (takeFault s e .execute (wordOf i s) i.operandBytes)) ∨
    (i ≠ .hlt ∧ ∃ t, Writes i s t ∧ exec i s = .next (commit i s t)) ∨
    (i = .hlt ∧ exec i s = .next ((s.withPc (pcAfter s 1)).stopped .halted
      (haltRecord .hltExecuted .execute s.pc (wordOf .hlt s)))) := by
  rw [← or_assoc, or_comm]
  cases i with
  | hlt => exact .inl ⟨rfl, rfl⟩
  | ret =>
    refine .inr (finish_writes (by simp) ?_)
    rcases popByte_cases s with ⟨h, e⟩ | ⟨h, e⟩
    · exact .inr ⟨_, ⟨h, rfl⟩, by simp [e, bind, Except.bind, pure, Except.pure]⟩
    · exact .inl ⟨_, raised_outOfRange _, by rw [e]; rfl⟩
  | push r =>
    refine .inr (finish_writes (by simp) ?_)
    by_cases hr : r.toNat < 8
    · simp only [readReg_of_lt hr, bind, Except.bind]
      rcases pushByte_cases s s.x[r.toNat] with ⟨h0, h1, e⟩ | ⟨_, e⟩
      · exact .inr ⟨_, ⟨hr, h0, h1, rfl⟩, e⟩
      · exact .inl ⟨_, by simp [Raised], e⟩
    · exact .inl ⟨_, raised_invalidRegister r, by simp only [readReg_of_ge (s := s) (Nat.not_lt.mp hr)]; rfl⟩
  | pop r =>
    refine .inr (finish_writes (by simp) ?_)
    by_cases hr : r.toNat < 8
    · simp only [checkReg_of_lt hr, bind, Except.bind]
      rcases popByte_cases s with ⟨h, e⟩ | ⟨_, e⟩
      · exact .inr ⟨_, ⟨hr, h, rfl⟩, by simp only [e, writeReg_of_lt hr]; rfl⟩
      · exact .inl ⟨_, raised_outOfRange s.sp.toNat, by simp only [e]⟩
    · exact .inl ⟨_, raised_invalidRegister r, by simp only [checkReg_of_ge (Nat.not_lt.mp hr)]; rfl⟩
  | prn r =>
    refine .inr (finish_writes (by simp) ?_)
    by_cases hr : r.toNat < 8
    · exact .inr ⟨_, ⟨hr, rfl⟩, by simp only [readReg_of_lt hr]; rfl⟩
    · exact .inl ⟨_, raised_invalidRegister r, by simp only [readReg_of_ge (s := s) (Nat.not_lt.mp hr)]; rfl⟩
  | call r =>
    refine .inr (finish_writes (by simp) ?_)
    by_cases hr : r.toNat < 8
    · simp only [readReg_of_lt hr, bind, Except.bind]
      by_cases ha : 0 ≤ pushAddr s ∧ pushAddr s ≤ 255
      · simp only [checkRange_ok ha]
        by_cases hp : s.pc.toNat + 2 ≤ 255
        · simp only [returnAddress, hp, if_true]
          rcases pushByte_cases s (BitVec.ofNat 8 (s.pc.toNat + 2)) with ⟨h0, h1, e⟩ | ⟨h, _⟩
          · exact .inr ⟨_, ⟨hr, h0, h1, by omega, rfl⟩, by simp only [e]; rfl⟩
          · exact absurd ha h
        · exact .inl ⟨_, raised_outOfRange (s.pc.toNat + 2), by simp only [returnAddress, hp, if_false]⟩
      · exact .inl ⟨_, raised_outOfRange (pushAddr s), by simp only [checkRange_error ha]⟩
    · exact .inl ⟨_, raised_invalidRegister r, by simp only [readReg_of_ge (s := s) (Nat.not_lt.mp hr)]; rfl⟩
  | jmp r =>
    refine .inr (finish_writes (by simp) ?_)
    rcases jumpTo_cases r s with ⟨hr, e⟩ | ⟨_, e⟩
    · exact .inr ⟨_, ⟨hr, rfl⟩, e⟩
    · exact .inl ⟨_, by simp [Raised], e⟩
  | jeq r =>
    refine .inr (finish_writes (by simp) ?_)
    cases flagE s.fl
    · exact .inr ⟨_, .inr rfl, rfl⟩
    · rcases jumpTo_cases r s with ⟨hr, e⟩ | ⟨_, e⟩
      · exact .inr ⟨_, .inl ⟨hr, rfl⟩, e⟩
      · exact .inl ⟨_, by simp [Raised], e⟩
  | jne r =>
    refine .inr (finish_writes (by simp) ?_)
    cases flagE s.fl
    · rcases jumpTo_cases r s with ⟨hr, e⟩ | ⟨_, e⟩
      · exact .inr ⟨_, .inl ⟨hr, rfl⟩, e⟩
      · exact .inl ⟨_, by simp [Raised], e⟩
    · exact .inr ⟨_, .inr rfl, rfl⟩
  | ldi r imm8 =>
    refine .inr (finish_writes (by simp) ?_)
    by_cases hr : r.toNat < 8
    · exact .inr ⟨_, ⟨hr, rfl⟩, by simp only [writeReg_of_lt hr]; rfl⟩
    · exact .inl ⟨_, raised_invalidRegister r, by simp only [writeReg_of_ge (s := s) (Nat.not_lt.mp hr)]; rfl⟩
  | add ra rb =>
    refine .inr (finish_writes (by simp) ?_)
    rcases aluExec_result (.inl rfl) ra rb s with h | ⟨v, ha, hb, e⟩
    · exact .inl h
    · exact .inr ⟨_, ⟨v, ha, hb, rfl⟩, e⟩
  | sub ra rb =>
    refine .inr (finish_writes (by simp) ?_)
    rcases aluExec_result (.inr (.inl rfl)) ra rb s with h | ⟨v, ha, hb, e⟩
    · exact .inl h
    · exact .inr ⟨_, ⟨v, ha, hb, rfl⟩, e⟩
  | mul ra rb =>
    refine .inr (finish_writes (by simp) ?_)
    rcases aluExec_result (.inr (.inr (.inl rfl))) ra rb s with h | ⟨v, ha, hb, e⟩
    · exact .inl h
    · exact .inr ⟨_, ⟨v, ha, hb, rfl⟩, e⟩
  | div ra rb =>
    refine .inr (finish_writes (by simp) ?_)
    rcases aluExec_result (.inr (.inr (.inr rfl))) ra rb s with h | ⟨v, ha, hb, e⟩
    · exact .inl h
    · exact .inr ⟨_, ⟨v, ha, hb, rfl⟩, e⟩
  | cmp ra rb =>
    refine .inr (finish_writes (by simp) ?_)
    rcases aluExec_compare ra rb s with h | ⟨ha, hb, e⟩
    · exact .inl h
    · exact .inr ⟨_, ⟨ha, hb, rfl⟩, e⟩

/-! ### The fetch unit -/

/-- Everything a fetch can give (R141, R143, R144). -/
theorem fetch_cases (s : State) :
    (255 < s.pc.toNat ∧ fetch s = .failed (.outOfRange s.pc.toNat) .opcodeFetch 0 []) ∨
    (s.pc.toNat ≤ 255 ∧ lookup s.cfg (s.mem.read s.pc.toNat) = none ∧
      fetch s = .unrecognized (s.mem.read s.pc.toNat)) ∨
    (∃ row, s.pc.toNat ≤ 255 ∧ lookup s.cfg (s.mem.read s.pc.toNat) = some row ∧
      ((s.pc.toNat + row.operands ≤ 255 ∧
        fetch s = .instr (row.op.build (s.mem.read (s.pc.toNat + 1)) (s.mem.read (s.pc.toNat + 2)))) ∨
       (255 < s.pc.toNat + row.operands ∧
        fetch s = .failed (.outOfRange 256) .operandFetch (s.mem.read s.pc.toNat)
          ((List.range' (s.pc.toNat + 1) (255 - s.pc.toNat)).map s.mem.read)))) := by
  by_cases hp : s.pc.toNat ≤ 255
  · have hw : memRead s (s.pc.toNat : Int) = .ok (s.mem.read s.pc.toNat) :=
      memRead_ok ⟨by omega, by omega⟩
    cases hl : lookup s.cfg (s.mem.read s.pc.toNat) with
    | none => exact .inr (.inl ⟨hp, rfl, by simp [fetch, hw, hl]⟩)
    | some row =>
      refine .inr (.inr ⟨row, hp, rfl, ?_⟩)
      obtain ⟨hrow, -, -⟩ := lookup_some hl
      have hn : row.operands = row.op.operands := by rw [hrow]; rfl
      have hr : ∀ a : Nat, a ≤ 255 → memRead s (a : Int) = .ok (s.mem.read a) := fun a h =>
        memRead_ok ⟨by omega, by omega⟩
      have hr' : memRead s (256 : Int) = .error (.outOfRange 256) := memRead_error (by omega)
      by_cases hq : s.pc.toNat + row.operands ≤ 255
      · refine .inl ⟨hq, ?_⟩
        have hf := fetchOperands_ok s (s.pc.toNat + 1) row.operands [] (by omega)
        rw [hn] at hf
        simp only [fetch, hw, hl, hn, hf]
        cases row.op <;>
          simp [Op.operands, Op.format, Format.operands, Op.build, List.range']
      · refine .inr ⟨by omega, ?_⟩
        have h2 := operands_le_two row.op
        have h256 : s.pc.toNat = 255 ∨ (s.pc.toNat = 254 ∧ row.operands = 2) := by omega
        have h1 : 1 ≤ row.operands := by omega
        simp only [fetch, hw, hl]
        rcases h256 with h | ⟨h, hr2⟩
        · obtain ⟨n, hn'⟩ : ∃ n, row.operands = n + 1 := ⟨row.operands - 1, by omega⟩
          simp [hn', fetchOperands, h, hr']
        · have h255 := hr 255 (by omega)
          simp only [Nat.cast_ofNat] at h255
          simp [hr2, fetchOperands, h, hr', h255]
  · exact .inl ⟨by omega, by
      simp only [fetch, memRead_error (s := s) (addr := (s.pc.toNat : Int)) (by omega)]⟩

/-- Everything a step can do (R140, R147). -/
theorem step_cases (s : State) :
    (s.run ≠ .running ∧ step s = .next s) ∨
    (s.run = .running ∧
      ((∃ e phase word ops, fetch s = .failed e phase word ops ∧
          step s = .next (takeFault s e phase word ops)) ∨
       (∃ w, fetch s = .unrecognized w ∧ step s = .next (haltUnrecognized s w)) ∨
       (∃ i, fetch s = .instr i ∧ step s = exec i s))) := by
  cases hrun : s.run <;> simp only [step, hrun]
  · exact .inl ⟨by simp, trivial⟩
  · refine .inr ⟨trivial, ?_⟩
    cases hf : fetch s with
    | instr i => exact .inr (.inr ⟨i, rfl, rfl⟩)
    | unrecognized w => exact .inr (.inl ⟨w, rfl, rfl⟩)
    | failed e phase word ops => exact .inl ⟨e, phase, word, ops, rfl, rfl⟩
  · exact .inl ⟨by simp, trivial⟩
  · exact .inl ⟨by simp, trivial⟩

/-- A fetched instruction lies inside memory, under its own word, in a row the table has (R107, R144). -/
theorem fetch_instr {s : State} {i : Instr} (h : fetch s = .instr i) :
    s.pc.toNat + i.op.operands ≤ 255 ∧ s.mem.read s.pc.toNat = s.cfg.opcodes.word i.op ∧
      i.wf s.cfg = true ∧
      i = i.op.build (s.mem.read (s.pc.toNat + 1)) (s.mem.read (s.pc.toNat + 2)) := by
  rcases fetch_cases s with ⟨_, h'⟩ | ⟨_, _, h'⟩ | ⟨row, _, hl, ⟨hq, h'⟩ | ⟨_, h'⟩⟩ <;>
    rw [h] at h' <;> cases h'
  obtain ⟨h1, h2, h3⟩ := lookup_some hl
  have ho : row.operands = row.op.operands := by rw [h1]; rfl
  exact ⟨by simpa [ho] using hq, by simpa using h3.symm, by simpa [Instr.wf] using h2, by simp⟩

/-- The address after an instruction is exact while it stays in 9 bits (R142). -/
theorem pcAfter_toNat {s : State} {n : Nat} (h : s.pc.toNat + n < 512) :
    (pcAfter s n).toNat = s.pc.toNat + n := by
  simp only [pcAfter, BitVec.toNat_ofNat]
  omega

/-- The writes of an instruction touch neither the run state, the stop record nor the configuration. -/
theorem writes_keep_run {i : Instr} {s t : State} (h : Writes i s t) :
    t.run = s.run ∧ t.stop = s.stop ∧ t.cfg = s.cfg := by
  cases i <;> simp only [Writes] at h
  case hlt => subst h; exact ⟨rfl, rfl, rfl⟩
  case ret => obtain ⟨_, rfl⟩ := h; exact ⟨rfl, rfl, rfl⟩
  case push => obtain ⟨_, _, _, rfl⟩ := h; exact ⟨rfl, rfl, rfl⟩
  case pop => obtain ⟨_, _, rfl⟩ := h; exact ⟨rfl, rfl, rfl⟩
  case prn => obtain ⟨_, rfl⟩ := h; exact ⟨rfl, rfl, rfl⟩
  case call => obtain ⟨_, _, _, _, rfl⟩ := h; exact ⟨rfl, rfl, rfl⟩
  case jmp => obtain ⟨_, rfl⟩ := h; exact ⟨rfl, rfl, rfl⟩
  case jeq => rcases h with ⟨_, rfl⟩ | rfl <;> exact ⟨rfl, rfl, rfl⟩
  case jne => rcases h with ⟨_, rfl⟩ | rfl <;> exact ⟨rfl, rfl, rfl⟩
  case ldi => obtain ⟨_, rfl⟩ := h; exact ⟨rfl, rfl, rfl⟩
  case cmp => obtain ⟨_, _, rfl⟩ := h; exact ⟨rfl, rfl, rfl⟩
  all_goals obtain ⟨_, _, _, rfl⟩ := h; exact ⟨rfl, rfl, rfl⟩

end Sys2Proof.Machine
end

