-- ==== Sys2Proof/Laws/PerInstr.lean ====
section
/-! SUPPORT. Facts about every instruction as syntax, one lemma per constructor. -/

/-- The bytes of an instruction: the opcode word its row has under any map, then as many operand bytes as
the row's operand count, at most two; and building the row from those bytes gives the instruction back
(30_encoding.md R100, R102, R103). -/
def Sys2Proof.Laws.Layout.Statement (i : Sys2Proof.Instr) : Prop :=
  ∀ c : Sys2Proof.Config,
    (Sys2Proof.encode c i).length = 1 + i.op.operands ∧ i.op.operands ≤ 2 ∧
    (Sys2Proof.encode c i).headD 0 = c.opcodes.word i.op ∧
    i.op.build ((Sys2Proof.encode c i).getD 1 0) ((Sys2Proof.encode c i).getD 2 0) = i

namespace Sys2Proof.Laws.Layout

theorem hlt : Statement .hlt := fun _ => ⟨rfl, operands_le_two _, rfl, rfl⟩
theorem ret : Statement .ret := fun _ => ⟨rfl, operands_le_two _, rfl, rfl⟩
theorem push (r : Byte) : Statement (.push r) := fun _ => ⟨rfl, operands_le_two _, rfl, rfl⟩
theorem pop (r : Byte) : Statement (.pop r) := fun _ => ⟨rfl, operands_le_two _, rfl, rfl⟩
theorem prn (r : Byte) : Statement (.prn r) := fun _ => ⟨rfl, operands_le_two _, rfl, rfl⟩
theorem call (r : Byte) : Statement (.call r) := fun _ => ⟨rfl, operands_le_two _, rfl, rfl⟩
theorem jmp (r : Byte) : Statement (.jmp r) := fun _ => ⟨rfl, operands_le_two _, rfl, rfl⟩
theorem jeq (r : Byte) : Statement (.jeq r) := fun _ => ⟨rfl, operands_le_two _, rfl, rfl⟩
theorem jne (r : Byte) : Statement (.jne r) := fun _ => ⟨rfl, operands_le_two _, rfl, rfl⟩
theorem ldi (r imm8 : Byte) : Statement (.ldi r imm8) := fun _ => ⟨rfl, operands_le_two _, rfl, rfl⟩
theorem add (ra rb : Byte) : Statement (.add ra rb) := fun _ => ⟨rfl, operands_le_two _, rfl, rfl⟩
theorem mul (ra rb : Byte) : Statement (.mul ra rb) := fun _ => ⟨rfl, operands_le_two _, rfl, rfl⟩
theorem cmp (ra rb : Byte) : Statement (.cmp ra rb) := fun _ => ⟨rfl, operands_le_two _, rfl, rfl⟩
theorem sub (ra rb : Byte) : Statement (.sub ra rb) := fun _ => ⟨rfl, operands_le_two _, rfl, rfl⟩
theorem div (ra rb : Byte) : Statement (.div ra rb) := fun _ => ⟨rfl, operands_le_two _, rfl, rfl⟩

end Sys2Proof.Laws.Layout
end

