-- ==== Sys2Proof/Laws/Safety.lean ====
section
/-! SUPPORT. Runs of several steps, and what a placed word or a loaded image leaves in memory. -/

namespace Sys2Proof.Machine

/-- One more step grant. -/
theorem stepsFrom_succ (k : Nat) (s : State) : stepsFrom (k + 1) s =
    match step s with
    | .next t => stepsFrom k t
    | .fault r => .fault r
    | .refused r => .refused r := by
  have e : Sys2Proof.core.step s = step s := rfl
  simp only [stepsFrom, Host.Core.run, e]
  cases step s <;> rfl

/-- Storing bytes at consecutive addresses keeps the canonical form: bytes past the end are left out. -/
theorem Memory.wf_writeAll : (bytes : List Byte) → (m : Memory) → (addr : Nat) → m.wf = true →
    (m.writeAll addr bytes).wf = true
  | [], _, _, h => h
  | b :: rest, m, addr, h => by
    simp only [Memory.writeAll]
    split
    · exact Memory.wf_writeAll rest _ _ (Memory.wf_write h (by omega) b)
    · exact Memory.wf_writeAll rest _ _ h

/-- A host load keeps the canonical form (R306). -/
theorem hostLoad_keeps_wf (addr data : Byte) {s : State} (h : s.mem.wf = true) :
    (hostLoad addr data s).mem.wf = true := by
  cases hr : s.run <;> simp only [hostLoad, hr]
  · exact Memory.wf_write h addr.isLt data
  all_goals exact h

/-- Placing a table word keeps the canonical form. -/
theorem placeWord_keeps_wf (bytes : List Byte) {s : State} (h : s.mem.wf = true) :
    (placeWord s bytes).mem.wf = true := Memory.wf_writeAll bytes _ _ h

/-- The memory operations of the instructions keep the canonical form (R72). -/
theorem memWrite_keeps_wf {s t : State} {addr : Int} {v : Byte} (h : s.mem.wf = true)
    (e : memWrite s addr v = .ok t) : t.mem.wf = true := by
  by_cases ha : 0 ≤ addr ∧ addr ≤ 255
  · rw [memWrite_ok ha] at e; cases e
    exact Memory.wf_write h (by omega) v
  · rw [memWrite_error ha] at e; cases e

end Sys2Proof.Machine
end

