-- ==== Sys2Proof/Tests/Slice0.lean ====
section
/-! SUPPORT. Tests: what the checks refuse, words written out from the spec's encodings, the spec's own
vectors (95_test_vectors.md, named in each test), and a witness for the hypotheses of each statement. -/

namespace Sys2Proof.Tests

open Sys2Proof Sys2Proof.Machine Sys2Proof.Stmt

/-! ### Small states -/

/-- The vectors' starting state: Running, the bytes at `p`, everything else as after reset. -/
def start (p : Nat) (bytes : List Byte) : State :=
  { State.reset with run := .running, pc := BitVec.ofNat 9 p, mem := Memory.writeAll [] p bytes }

/-- The same with SUB and DIV exposed. -/
def startFull (p : Nat) (bytes : List Byte) : State := { start p bytes with cfg := Config.fullTable }

/-- Whether one step from `s` answers a next state that `f` accepts. -/
def runs (s : State) (f : State → Bool) : Bool :=
  match step s with
  | .next t => f t
  | .fault _ | .refused _ => false

/-- Whether the state is Faulted with this cause, phase and info, as numbers (R44, R45, R271). -/
def faultedWith (t : State) (cause : BitVec 3) (phase : BitVec 2) (info : BitVec 10) : Bool :=
  t.run.code == 3 && t.stop.cause.code == cause && t.stop.phase.code == phase && t.stop.info == info

/-- Whether the state is Halted with this cause and word at address `pc`. -/
def haltedWith (t : State) (cause : BitVec 3) (word : Byte) (pc : Addr9) : Bool :=
  t.run.code == 2 && t.stop.cause.code == cause && t.stop.word == word && t.stop.pc == pc

/-! ### The well-formedness checks refuse -/

theorem test_sub_has_no_row_when_hidden : Instr.wf Config.hardware (.sub 0 1) = false := by decide
theorem test_div_has_no_row_when_hidden : Instr.wf Config.hardware (.div 0 1) = false := by decide
theorem test_sp_reset_above_256_refused : Config.wf { Config.hardware with spReset := 257 } = false := by
  decide
theorem test_map_with_wrong_count_refused :
    OpcodeMap.legal { defaultOpcodes with jmp := 0b10010100 } = false := by decide
theorem test_map_with_wrong_sets_pc_refused :
    OpcodeMap.legal { defaultOpcodes with jmp := 0b01000100 } = false := by decide
theorem test_map_with_shared_word_refused :
    OpcodeMap.legal { defaultOpcodes with push := defaultOpcodes.pop } = false := by decide
theorem test_register_eight_has_no_spelling : Instr.spellable (.prn 8) = false := by decide
theorem test_second_register_eight_has_no_spelling : Instr.spellable (.add 7 8) = false := by decide
theorem test_ldi_register_eight_has_no_spelling : Instr.spellable (.ldi 8 0) = false := by decide
theorem test_hardware_config_legal : Config.hardware.wf = true := by decide

/-! ### Words from the encodings of R103 and R106 -/

theorem test_decode_hlt : decode Config.hardware [0b00000001] = .ok (.hlt, []) := by decide
theorem test_decode_ret : decode Config.hardware [0b00010001] = .ok (.ret, []) := by decide
theorem test_decode_push : decode Config.hardware [0b01000101, 7] = .ok (.push 7, []) := by decide
theorem test_decode_pop : decode Config.hardware [0b01000110, 1] = .ok (.pop 1, []) := by decide
theorem test_decode_prn : decode Config.hardware [0b01000111, 3] = .ok (.prn 3, []) := by decide
theorem test_decode_call : decode Config.hardware [0b01010000, 1] = .ok (.call 1, []) := by decide
theorem test_decode_jmp : decode Config.hardware [0b01010100, 3] = .ok (.jmp 3, []) := by decide
theorem test_decode_jeq : decode Config.hardware [0b01010101, 2] = .ok (.jeq 2, []) := by decide
theorem test_decode_jne : decode Config.hardware [0b01010110, 9] = .ok (.jne 9, []) := by decide
theorem test_decode_ldi : decode Config.hardware [0b10000010, 0, 8, 1] = .ok (.ldi 0 8, [1]) := by decide
theorem test_decode_add : decode Config.hardware [0b10100000, 5, 6] = .ok (.add 5 6, []) := by decide
theorem test_decode_mul : decode Config.hardware [0b10100010, 0, 1] = .ok (.mul 0 1, []) := by decide
theorem test_decode_cmp : decode Config.hardware [0b10100111, 2, 2] = .ok (.cmp 2 2, []) := by decide
theorem test_decode_sub : decode Config.fullTable [0b10100001, 4, 4] = .ok (.sub 4 4, []) := by decide
theorem test_decode_div : decode Config.fullTable [0b10100011, 3, 255] = .ok (.div 3 255, []) := by decide
/-- R110: 0x00 is not a NOP. -/
theorem test_decode_zero : decode Config.hardware [0, 0, 0] = .error (.unrecognized 0) := by decide
/-- The table's numbering: the second byte is bits 15 to 8. -/
theorem test_table_word_ldi : decodeTableWord 24 0x0B0182 = some (.ldi 1 11) := by decide
theorem test_table_word_short : decodeTableWord 8 0xA3 = some (.div 0 0) := by decide
theorem test_table_word_unrecognized : decodeTableWord 8 0xFF = none := by decide
/-- R101: the fields of the word of CALL, 01010000, and of CMP, 10100111. -/
theorem test_word_fields : wordCount 0x50 = 1 ∧ wordSetsPc 0x50 = true ∧ wordIsAlu 0x50 = false ∧
    wordIsAlu 0xA7 = true ∧ wordIdent 0xA7 = 7 := by decide

/-! ### The dispatcher (vectors D) -/

/-- D-2. -/
theorem test_unrecognized_halts : runs (start 37 [0xFF]) (fun t => haltedWith t 2 0xFF 37 && t.pc == 37) = true := by
  decide
/-- D-3. -/
theorem test_top_bits_three_halt : runs (start 0 [0xC2, 1, 2]) (fun t => haltedWith t 2 0xC2 0 && t.stop.nops == 0) = true := by
  decide
/-- D-6. -/
theorem test_fetch_at_256_faults : runs (start 256 []) (fun t => faultedWith t 3 0 256 && t.pc == 256 && t.stop.word == 0) = true := by
  decide
/-- D-8. -/
theorem test_second_operand_past_end : runs (start 254 [0xA0, 0]) (fun t => faultedWith t 3 2 256 && t.stop.nops == 1 && t.stop.op1 == 0) = true := by
  decide
/-- D-9. -/
theorem test_first_operand_past_end : runs (start 255 [0x82]) (fun t => faultedWith t 3 2 256 && t.stop.nops == 0) = true := by
  decide
/-- D-11. -/
theorem test_operand_fetch_before_register_check : runs (start 254 [0x82, 9]) (fun t => faultedWith t 3 2 256 && t.stop.op1 == 9) = true := by
  decide

/-! ### ALU instructions and the ALU block (vectors A, M, C, S, V, U) -/

/-- A-1. -/
theorem test_add_wraps : runs { start 0 [0xA0, 0, 1] with x := #v[200, 100, 0, 0, 0, 0, 0, 0] }
    (fun t => t.x[0] == 44 && t.x[1] == 100 && t.pc == 3) = true := by decide
/-- A-7. -/
theorem test_add_checks_first_register_first : runs (start 0 [0xA0, 9, 8]) (fun t => faultedWith t 4 3 9) = true := by
  decide
/-- M-3. -/
theorem test_mul_wraps : runs { start 0 [0xA2, 0, 1] with x := #v[20, 13, 0, 0, 0, 0, 0, 0] }
    (fun t => t.x[0] == 4) = true := by decide
/-- M-4. -/
theorem test_mul_same_register : runs { start 0 [0xA2, 0, 0] with x := #v[255, 0, 0, 0, 0, 0, 0, 0] }
    (fun t => t.x[0] == 1) = true := by decide
/-- C-4. -/
theorem test_cmp_unsigned : runs { start 0 [0xA7, 0, 1] with x := #v[0, 255, 0, 0, 0, 0, 0, 0] }
    (fun t => t.fl == 0b100 && t.pc == 3) = true := by decide
/-- C-5. -/
theorem test_cmp_clears_old_flag : runs { start 0 [0xA7, 2, 2] with x := #v[0, 0, 9, 0, 0, 0, 0, 0], fl := 0b100 }
    (fun t => t.fl == 0b001) = true := by decide
/-- S-2. -/
theorem test_sub_wraps : runs { startFull 0 [0xA1, 0, 1] with x := #v[3, 5, 0, 0, 0, 0, 0, 0] }
    (fun t => t.x[0] == 254) = true := by decide
/-- S-5. -/
theorem test_sub_hidden_halts : runs { start 0 [0xA1, 0, 1] with x := #v[10, 3, 0, 0, 0, 0, 0, 0] }
    (fun t => haltedWith t 2 0xA1 0 && t.x[0] == 10) = true := by decide
/-- V-1. -/
theorem test_div_floors : runs { startFull 0 [0xA3, 0, 1] with x := #v[7, 2, 0, 0, 0, 0, 0, 0] }
    (fun t => t.x[0] == 3 && t.pc == 3) = true := by decide
/-- V-3. -/
theorem test_div_by_zero_faults : runs { startFull 0 [0xA3, 0, 1] with x := #v[7, 0, 0, 0, 0, 0, 0, 0] }
    (fun t => faultedWith t 5 3 1 && t.x[0] == 7) = true := by decide
/-- U-1, U-2 and U-3. -/
theorem test_alu_block : alu 0 200 100 = { result := some 44, fl := none, err := none } ∧
    alu 7 9 9 = { result := none, fl := some 0b001, err := none } ∧
    alu 3 7 0 = { result := none, fl := none, err := some .divisionByZero } := by decide
/-- U-4. -/
theorem test_alu_unsupported_selectors : (alu 4 1 2).err = some .unsupportedOperation ∧
    (alu 5 1 2).resultWe = false ∧ (alu 6 1 2).flWe = false ∧
    (alu 6 1 2).err = some .unsupportedOperation := by decide

/-! ### HLT, LDI, PRN (vectors H, L, P) -/

/-- H-1. -/
theorem test_hlt_advances : runs (start 5 [0x01]) (fun t => haltedWith t 1 0x01 5 && t.pc == 6 && t.stop.phase.code == 3) = true := by
  decide
/-- H-2. -/
theorem test_hlt_at_last_address : runs (start 255 [0x01]) (fun t => haltedWith t 1 0x01 255 && t.pc == 256) = true := by
  decide
/-- L-2. -/
theorem test_ldi_r7_is_not_sp : runs (start 0 [0x82, 7, 0xFF]) (fun t => t.x[7] == 255 && t.sp == 0xF4) = true := by
  decide
/-- L-3. -/
theorem test_ldi_invalid_register : runs (start 0 [0x82, 8, 1])
    (fun t => faultedWith t 4 3 8 && t.stop.nops == 2 && t.stop.op1 == 8 && t.stop.op2 == 1) = true := by decide
/-- P-1. -/
theorem test_prn_emits : runs { start 3 [0x47, 0] with x := #v[8, 0, 0, 0, 0, 0, 0, 0] }
    (fun t => t.output == [8] && t.pc == 5) = true := by decide
/-- P-4. -/
theorem test_prn_invalid_emits_nothing : runs (start 0 [0x47, 8]) (fun t => faultedWith t 4 3 8 && t.output == []) = true := by
  decide

/-! ### The stack (vectors K) -/

/-- K-2. -/
theorem test_push_at_zero_faults : runs { start 0 [0x45, 0] with sp := 0 } (fun t => faultedWith t 3 3 0x3FF && t.sp == 0) = true := by
  decide
/-- K-3. -/
theorem test_push_from_256 : runs { start 0 [0x45, 0] with sp := 256, x := #v[1, 0, 0, 0, 0, 0, 0, 0] }
    (fun t => t.mem.read 255 == 1 && t.sp == 255 && t.pc == 2) = true := by decide
/-- K-7. -/
theorem test_pop_to_256 : runs { start 0 [0x46, 1] with sp := 255, mem := [(0, 0x46), (1, 1), (255, 77)] }
    (fun t => t.x[1] == 77 && t.sp == 256 && t.mem.read 255 == 77) = true := by decide
/-- K-9. -/
theorem test_pop_checks_register_first : runs { start 0 [0x46, 8] with sp := 256 } (fun t => faultedWith t 4 3 8) = true := by
  decide

/-! ### Control transfer (vectors T, R, J, Q, N) -/

/-- T-1. -/
theorem test_call_pushes_return : runs { start 6 [0x50, 1] with x := #v[0, 11, 0, 0, 0, 0, 0, 0] }
    (fun t => t.mem.read 0xF3 == 8 && t.sp == 0xF3 && t.pc == 11) = true := by decide
/-- T-7. -/
theorem test_call_checks_push_first : runs { start 254 [0x50, 1] with sp := 0 } (fun t => faultedWith t 3 3 0x3FF) = true := by
  decide
/-- R-2. -/
theorem test_ret_at_256_faults : runs { start 11 [0x11] with sp := 256 } (fun t => faultedWith t 3 3 256 && t.pc == 11) = true := by
  decide
/-- R-3. -/
theorem test_ret_pops_own_byte : runs { start 255 [0x11] with sp := 255 } (fun t => t.pc == 17 && t.sp == 256) = true := by
  decide
/-- J-1. -/
theorem test_jmp : runs { start 0 [0x54, 3] with x := #v[0, 0, 0, 12, 0, 0, 0, 0] } (fun t => t.pc == 12) = true := by
  decide
/-- J-2. -/
theorem test_jmp_invalid_register : runs (start 0 [0x54, 8]) (fun t => faultedWith t 4 3 8 && t.pc == 0) = true := by
  decide
/-- Q-1. -/
theorem test_jeq_taken : runs { start 0 [0x55, 2] with x := #v[0, 0, 40, 0, 0, 0, 0, 0], fl := 0b001 }
    (fun t => t.pc == 40) = true := by decide
/-- Q-4. -/
theorem test_jeq_falls_through_unchecked : runs { start 20 [0x55, 9] with fl := 0b010 } (fun t => t.pc == 22 && t.run.code == 1) = true := by
  decide
/-- N-3. -/
theorem test_jne_taken_before_compare : runs { start 20 [0x56, 3] with x := #v[0, 0, 0, 12, 0, 0, 0, 0] }
    (fun t => t.pc == 12) = true := by decide
/-- N-4. -/
theorem test_jne_falls_through_unchecked : runs { start 20 [0x56, 9] with fl := 0b001 } (fun t => t.pc == 22) = true := by
  decide

/-! ### Reset, start and the Loader (vectors Z), assembly (R120) -/

/-- Z-3. -/
theorem test_start_on_empty_memory : runs (hostStart State.reset) (fun t => haltedWith t 2 0 0) = true := by
  decide
/-- Z-5. -/
theorem test_load_while_running_ignored : hostLoad 5 6 (start 0 [1]) = start 0 [1] := by decide
/-- Z-6. -/
theorem test_loader_skips_comments : parseProgram ["10000010  # LDI".toList, [], "# comment".toList,
    "00000000".toList, "00001000".toList] = .ok [0x82, 0, 8] := by decide
/-- Z-7. -/
theorem test_loader_refuses_malformed : parseProgram ["00000001".toList, "1000001x".toList] =
    .error (.malformedInstruction 2 "1000001x".toList) := by decide
/-- Z-8. -/
theorem test_loader_refuses_256 : parseProgram ["100000000".toList] =
    .error (.malformedInstruction 1 "100000000".toList) := by decide
theorem test_assemble_ldi : assemble "LDI R0,8".toList = some (.ldi 0 8) := by decide
theorem test_assemble_binary_immediate : assemble "LDI R3,0b11001000".toList = some (.ldi 3 200) := by decide
theorem test_assemble_refuses_r8 : assemble "PRN R8".toList = none := by decide
theorem test_spell_add : spell (.add 5 6) = "ADD R5,R6".toList := by decide
/-- The first instruction after reset, placed and run. -/
theorem test_placed_word_runs : runs (State.reset.withFetchWord 24 0x0701A1) (fun t => t.pc == 3 && t.run.code == 1) = true := by
  decide
/-- The port shows PRN's event and nothing else (R51). -/
theorem test_out_event : runs (start 0 [0x47, 5]) (fun t => outEvent (start 0 [0x47, 5]) t == some 0) = true := by
  decide

/-! ### Witnesses: the hypotheses of the statements can be met, clause by clause -/

/-- A state that just faulted, halted or ran on, for the statements about a step's outcome. -/
theorem witness_step_outcomes :
    (∃ s t, s.run = .running ∧ step s = .next t ∧ t.run = .faulted ∧ t.stop.phase = .opcodeFetch) ∧
    (∃ s t, s.run = .running ∧ step s = .next t ∧ t.run = .faulted ∧ t.stop.phase = .operandFetch) ∧
    (∃ s t, s.run = .running ∧ step s = .next t ∧ t.run = .faulted ∧ t.stop.phase = .execute) ∧
    (∃ s t, s.run = .running ∧ step s = .next t ∧ t.run = .halted) ∧
    (∃ s t, s.run = .running ∧ step s = .next t ∧ t.run = .running) :=
  ⟨⟨start 256 [], _, rfl, rfl, by decide, by decide⟩, ⟨start 255 [0x47], _, rfl, rfl, by decide, by decide⟩,
   ⟨start 0 [0x47, 8], _, rfl, rfl, by decide, by decide⟩, ⟨start 0 [1], _, rfl, rfl, by decide⟩,
   ⟨start 0 [0x47, 0], _, rfl, rfl, by decide⟩⟩

theorem witness_StartOnlyFromIdle :
    (∃ s : State, s.run = .idle) ∧ (∃ s : State, s.run ≠ .idle) :=
  ⟨⟨State.reset, rfl⟩, ⟨start 0 [], by decide⟩⟩

theorem witness_LoadedImageIsInMemory :
    (∃ s : State, s.run = .idle ∧ s.mem.wf = true ∧ s.mem.read 255 = 9) ∧
    (∃ (s : State) (image : List Byte), s.run = .idle ∧ image.length ≤ 256 ∧ 256 ≤ image.length ∧
      s.mem.wf = true) ∧ (∃ s : State, s.run ≠ .idle) :=
  ⟨⟨{ State.reset with mem := [(255, 9)] }, rfl, by decide, by decide⟩,
   ⟨State.reset, List.replicate 256 1, rfl, (List.length_replicate ..).le, (List.length_replicate ..).ge, rfl⟩, ⟨start 0 [], by decide⟩⟩

theorem witness_BootStartsAtAddressZero : ∃ image : List Byte, image.length ≤ 256 ∧ 256 ≤ image.length :=
  ⟨List.replicate 256 1, (List.length_replicate ..).le, (List.length_replicate ..).ge⟩

theorem witness_StoppedCoreIsInert :
    (∃ s : State, s.run ≠ .running ∧ ¬ s.Ended) ∧ (∃ s : State, s.run = .halted ∧ s.Ended) ∧
    (∃ s : State, s.run = .faulted ∧ s.Ended) :=
  ⟨⟨State.reset, by decide, by simp [State.Ended, State.reset, State.resetWith]⟩,
   ⟨{ State.reset with run := .halted }, rfl, .inl rfl⟩, ⟨{ State.reset with run := .faulted }, rfl, .inr rfl⟩⟩

theorem witness_MemoryRangeCheck :
    (∃ addr : Int, 0 ≤ addr ∧ addr ≤ 255 ∧ 255 ≤ addr) ∧ (∃ addr : Int, addr < 0 ∧ addr = -1) ∧
    (∃ addr : Int, 255 < addr ∧ addr = 256) :=
  ⟨⟨255, by decide⟩, ⟨-1, by decide⟩, ⟨256, by decide⟩⟩

theorem witness_WriteChangesOneByte : ∃ (m : Memory) (a : Nat), m.wf = true ∧ a < 256 ∧ 255 ≤ a :=
  ⟨[(255, 1)], 255, by decide⟩

theorem witness_EqualReadsEqualMemories :
    ∃ m n : Memory, m.wf = true ∧ n.wf = true ∧ (∀ a : Nat, m.read a = n.read a) ∧ m ≠ [] :=
  ⟨[(0, 1), (255, 2)], [(0, 1), (255, 2)], by decide, by decide, fun _ => rfl, by decide⟩

/-- Register indices at the edge of R31, for every statement with a register hypothesis. -/
theorem witness_register_indices : (∃ r : Byte, r.toNat < 8 ∧ 7 ≤ r.toNat) ∧ (∃ r : Byte, 8 ≤ r.toNat ∧ r = 8) ∧
    (∃ k : Nat, k < 8) :=
  ⟨⟨7, by decide⟩, ⟨8, by decide⟩, ⟨7, by decide⟩⟩

theorem witness_AluResults : (∃ b : Byte, b.toNat = 0) ∧ (∃ b : Byte, b.toNat ≠ 0) ∧
    (∃ sel : BitVec 3, sel = 4 ∨ sel = 5 ∨ sel = 6) ∧ (∃ a b : Byte, a.toNat < b.toNat) ∧
    (∃ a b : Byte, b.toNat < a.toNat) ∧ (∃ a b : Byte, a = b) :=
  ⟨⟨0, by decide⟩, ⟨1, by decide⟩, ⟨6, by decide⟩, ⟨127, 128, by decide⟩, ⟨128, 127, by decide⟩,
   ⟨255, 255, rfl⟩⟩

theorem witness_LookupIsTheTable :
    Config.hardware.opcodes.legal = true ∧ lookup Config.hardware 0 = none ∧
    (∃ op : Op, Config.hardware.hasRow op = true ∧ Config.hardware.opcodes.word op = 0xA7) ∧
    (∃ row, lookup Config.fullTable 0xA3 = some row) :=
  ⟨by decide, by decide, ⟨.cmp, by decide⟩, ⟨_, rfl⟩⟩

/-- For LengthFromOpcodeWord and EncodeInvertsDecode. -/
theorem witness_decode_ok : ∃ (w : Byte) (rest rest' : List Byte) (i : Instr),
    Config.hardware.opcodes.legal = true ∧ decode Config.hardware (w :: rest) = .ok (i, rest') ∧ rest' ≠ [] :=
  ⟨0x82, [0, 8, 1], [1], .ldi 0 8, by decide, by decide, by decide⟩

theorem witness_UnrecognizedWordsStop :
    (∃ (c : Config) (w : Byte), c.opcodes.legal = true ∧ wordCount w = 3) ∧
    (∃ s : State, s.run = .running ∧ s.pc.toNat ≤ 255 ∧ 255 ≤ s.pc.toNat ∧
      lookup s.cfg (s.mem.read s.pc.toNat) = none) :=
  ⟨⟨Config.hardware, 0xC0, by decide, by decide⟩, ⟨start 255 [0xFF], rfl, by decide, by decide, by decide⟩⟩

theorem witness_DecodeInvertsEncode :
    (∃ (c : Config) (i : Instr), c.opcodes.legal = true ∧ i.wf c = true ∧ i.op = .div) ∧
    (∃ (c : Config) (i : Instr), c.opcodes.legal = true ∧ i.wf c = true ∧ c.exposeSubDiv = false) :=
  ⟨⟨Config.fullTable, .div 255 255, by decide⟩, ⟨Config.hardware, .ldi 255 255, by decide⟩⟩

theorem witness_AssembleInvertsSpell : ∃ i : Instr, i.spellable = true ∧ i = .ldi 7 255 :=
  ⟨.ldi 7 255, by decide, rfl⟩

theorem witness_OpcodeFetchOutOfRange : ∃ s : State, s.run = .running ∧ 255 < s.pc.toNat ∧ s.pc = 256 :=
  ⟨start 256 [], rfl, by decide, rfl⟩

theorem witness_OperandFetchReadsRowCount :
    (∃ (s : State) (row : OpRow), s.run = .running ∧ s.pc.toNat ≤ 255 ∧ s.cfg.opcodes.legal = true ∧
      lookup s.cfg (s.mem.read s.pc.toNat) = some row ∧
      s.pc.toNat + wordCount (s.mem.read s.pc.toNat) = 255) ∧
    (∃ (s : State) (row : OpRow), s.run = .running ∧ s.pc.toNat ≤ 255 ∧ s.cfg.opcodes.legal = true ∧
      lookup s.cfg (s.mem.read s.pc.toNat) = some row ∧
      s.pc.toNat + wordCount (s.mem.read s.pc.toNat) = 256) :=
  ⟨⟨start 253 [0x82], _, rfl, by decide, by decide, rfl, by decide⟩,
   ⟨start 254 [0x82], _, rfl, by decide, by decide, rfl, by decide⟩⟩

theorem witness_StepRunsDecodedInstruction :
    (∃ (s : State) (i : Instr) (rest : List Byte), s.run = .running ∧
      decode s.cfg (bytesFrom s.mem s.pc.toNat) = .ok (i, rest) ∧ s.pc.toNat = 253) ∧
    (∃ (s : State) (i : Instr), s.run = .running ∧ s.cfg.opcodes.legal = true ∧ i.wf s.cfg = true ∧
      ∀ (k : Nat) (_ : k < (encode s.cfg i).length),
        s.pc.toNat + k ≤ 255 ∧ s.mem.read (s.pc.toNat + k) = (encode s.cfg i)[k]) :=
  ⟨⟨start 253 [0xA0, 0, 1], .add 0 1, [], rfl, by decide, by decide⟩,
   ⟨start 255 [0x01], .hlt, rfl, by decide, by decide, by decide⟩⟩

theorem witness_PcAdvancesByLength : ∃ (s t : State) (i : Instr), s.run = .running ∧ fetch s = .instr i ∧
    step s = .next t ∧ t.run ≠ .faulted ∧ i.op.setsPc = false ∧ s.pc = 253 :=
  ⟨start 253 [0xA0, 0, 1], _, .add 0 1, rfl, by decide, rfl, by decide, by decide, by decide⟩

/-- For the OperandFetchFaults clause of every instruction that has operands. -/
theorem witness_OperandFetchFaults (op : Op) (h : op.operands ≠ 0) :
    ∃ s : State, WordAtPc s op ∧ s.cfg.hasRow op = true ∧ 255 < s.pc.toNat + op.operands := by
  refine ⟨startFull 255 [defaultOpcodes.word op], ?_⟩
  cases op <;>
    first
    | exact absurd rfl h
    | exact ⟨⟨rfl, by decide, by decide, by decide⟩, by decide, by decide⟩

/-- For the UnrecognizedWhenHidden clause of SUB and DIV. -/
theorem witness_UnrecognizedWhenHidden :
    (∃ s : State, WordAtPc s .sub ∧ s.cfg.exposeSubDiv = false) ∧
    (∃ s : State, WordAtPc s .div ∧ s.cfg.exposeSubDiv = false) :=
  ⟨⟨start 255 [0xA1], ⟨rfl, by decide, by decide, by decide⟩, rfl⟩,
   ⟨start 0 [0xA3], ⟨rfl, by decide, by decide, by decide⟩, rfl⟩⟩

theorem witness_PushStoresBelowSp :
    (∃ s : State, 0 < s.sp.toNat ∧ s.sp.toNat ≤ 256 ∧ s.sp = 1) ∧
    (∃ s : State, 0 < s.sp.toNat ∧ s.sp.toNat ≤ 256 ∧ s.sp = 256) ∧ (∃ s : State, s.sp.toNat = 0) :=
  ⟨⟨{ State.reset with sp := 1 }, by decide⟩, ⟨{ State.reset with sp := 256 }, by decide⟩,
   ⟨{ State.reset with sp := 0 }, by decide⟩⟩

/-- For PopLoadsFromSp and RetPopsPc. -/
theorem witness_pop_stack_pointers : (∃ s : State, s.sp.toNat ≤ 255 ∧ s.sp = 255) ∧ (∃ s : State, s.sp.toNat ≤ 255 ∧ s.sp = 0) ∧
    (∃ s : State, 255 < s.sp.toNat ∧ s.sp = 256) :=
  ⟨⟨{ State.reset with sp := 255 }, by decide⟩, ⟨{ State.reset with sp := 0 }, by decide⟩,
   ⟨{ State.reset with sp := 256 }, by decide⟩⟩

/-- For PopUndoesPush and the PUSH clauses of StoredByteIsFetchedNext, at the last free byte. -/
theorem witness_PopUndoesPush : ∃ (s t : State) (r : Byte), r.toNat < 8 ∧ s.run = .running ∧
    s.mem.wf = true ∧ s.sp.toNat ≤ 256 ∧ exec (.push r) s = .next t ∧ t.run ≠ .faulted ∧ s.sp = 1 :=
  ⟨{ start 10 [0x45, 7] with sp := 1, x := #v[0, 0, 0, 0, 0, 0, 0, 42] }, _, 7, by decide, rfl, by decide,
   by decide, rfl, by decide, rfl⟩

theorem witness_CallPushesReturnAddress :
    (∃ s : State, 0 < s.sp.toNat ∧ s.sp.toNat ≤ 256 ∧ s.pc.toNat ≤ 253 ∧ s.pc = 253) ∧
    (∃ s : State, s.sp.toNat = 0) ∧
    (∃ s : State, 0 < s.sp.toNat ∧ s.sp.toNat ≤ 256 ∧ 253 < s.pc.toNat ∧ s.pc = 254) :=
  ⟨⟨{ State.reset with pc := 253 }, by decide⟩, ⟨{ State.reset with sp := 0 }, by decide⟩,
   ⟨{ State.reset with pc := 254 }, by decide⟩⟩

/-- For JeqJumpsWhenEqual and JneJumpsWhenNotEqual. -/
theorem witness_branch_flags : (∃ s : State, s.fl.getLsbD 0 = true) ∧ (∃ s : State, s.fl.getLsbD 0 = false) :=
  ⟨⟨{ State.reset with fl := 0b001 }, by decide⟩, ⟨State.reset, by decide⟩⟩

theorem witness_RetResumesAfterCall : ∃ (s t u : State) (r : Byte), s.run = .running ∧ s.mem.wf = true ∧
    s.sp.toNat ≤ 256 ∧ exec (.call r) s = .next t ∧ t.run ≠ .faulted ∧ u.sp = t.sp ∧
    u.mem.read u.sp.toNat = t.mem.read t.sp.toNat :=
  ⟨start 253 [0x50, 1], _, _, 1, rfl, by decide, by decide, rfl, by decide, rfl, rfl⟩

theorem witness_BranchesFollowCompare : (∃ (s : State) (ra rb : Byte) (_ : ra.toNat < 8) (_ : rb.toNat < 8),
      s.x[ra.toNat] = s.x[rb.toNat]) ∧
    (∃ (s : State) (ra rb : Byte) (_ : ra.toNat < 8) (_ : rb.toNat < 8), s.x[ra.toNat] ≠ s.x[rb.toNat]) :=
  ⟨⟨State.reset, 0, 7, by decide, by decide, by decide⟩,
   ⟨{ State.reset with x := #v[3, 5, 0, 0, 0, 0, 0, 0] }, 0, 1, by decide, by decide, by decide⟩⟩

theorem witness_DivWritesQuotient :
    (∃ (s : State) (rb : Byte) (_ : rb.toNat < 8), s.x[rb.toNat].toNat ≠ 0) ∧
    (∃ (s : State) (rb : Byte) (_ : rb.toNat < 8), s.x[rb.toNat].toNat = 0) :=
  ⟨⟨{ State.reset with x := #v[1, 0, 0, 0, 0, 0, 0, 0] }, 0, by decide, by decide⟩,
   ⟨State.reset, 7, by decide, by decide⟩⟩

/-- For the three frames: an instruction of each group, completed. -/
theorem witness_Frames :
    (∃ (i : Instr) (s t : State), i.op ∈ [Op.add, .mul, .sub, .div, .cmp, .ldi] ∧ exec i s = .next t) ∧
    (∃ (i : Instr) (s t : State), i.op ∈ [Op.prn, .hlt, .jmp, .jeq, .jne] ∧ exec i s = .next t) ∧
    (∃ (i : Instr) (s t : State), i.op ∈ [Op.push, .pop, .call, .ret] ∧ exec i s = .next t) :=
  ⟨⟨.add 0 7, State.reset, _, by decide, rfl⟩, ⟨.prn 7, State.reset, _, by decide, rfl⟩,
   ⟨.call 7, State.reset, _, by decide, rfl⟩⟩

theorem witness_OnlyCmpWritesFlags :
    (∃ s t, step s = .next t ∧ t.fl ≠ s.fl) ∧
    (∃ (s t : State) (ra rb : Byte), ra.toNat < 8 ∧ rb.toNat < 8 ∧ exec (.cmp ra rb) s = .next t) :=
  ⟨⟨start 0 [0xA7, 0, 1], _, rfl, by decide⟩, ⟨State.reset, _, 7, 7, by decide, by decide, rfl⟩⟩

/-- JNE with L and G changed, ADD with E changed, and CMP with every flag changed: completed, and faulted by
its first and by its second register. -/
theorem witness_FlagReadersReadOnlyE :
    (∃ (i : Instr) (s t u : State) (f : FlagBits), f.getLsbD 0 = s.fl.getLsbD 0 ∧ exec i s = .next t ∧
      exec i { s with fl := f } = .next u ∧ f ≠ s.fl ∧ i.op = .jne) ∧
    (∃ (i : Instr) (s t u : State) (f : FlagBits), i.op ≠ .jeq ∧ i.op ≠ .jne ∧ exec i s = .next t ∧
      exec i { s with fl := f } = .next u ∧ f.getLsbD 0 ≠ s.fl.getLsbD 0) ∧
    (∃ (ra rb : Byte) (s t u : State) (f : FlagBits), ra.toNat < 8 ∧ rb.toNat < 8 ∧
      exec (.cmp ra rb) s = .next t ∧ exec (.cmp ra rb) { s with fl := f } = .next u ∧ f ≠ s.fl) ∧
    (∃ (ra rb : Byte) (s t u : State) (f : FlagBits), 8 ≤ ra.toNat ∧ rb.toNat < 8 ∧
      exec (.cmp ra rb) s = .next t ∧ exec (.cmp ra rb) { s with fl := f } = .next u ∧ f ≠ s.fl) ∧
    (∃ (ra rb : Byte) (s t u : State) (f : FlagBits), ra.toNat < 8 ∧ 8 ≤ rb.toNat ∧
      exec (.cmp ra rb) s = .next t ∧ exec (.cmp ra rb) { s with fl := f } = .next u ∧ f ≠ s.fl) :=
  ⟨⟨.jne 0, State.reset, _, _, 0b110, by decide, rfl, rfl, by decide, rfl⟩,
   ⟨.add 0 1, State.reset, _, _, 0b001, by decide, by decide, rfl, rfl, by decide⟩,
   ⟨7, 7, State.reset, _, _, 0b111, by decide, by decide, rfl, rfl, by decide⟩,
   ⟨8, 7, State.reset, _, _, 0b111, by decide, by decide, rfl, rfl, by decide⟩,
   ⟨7, 8, State.reset, _, _, 0b111, by decide, by decide, rfl, rfl, by decide⟩⟩

theorem witness_OnlyStackOpsMoveSp : ∃ s t, step s = .next t ∧ t.sp ≠ s.sp :=
  ⟨start 0 [0x45, 0], _, rfl, by decide⟩

theorem witness_OnlyPrnEmits : ∃ s t, step s = .next t ∧ t.output ≠ s.output :=
  ⟨start 0 [0x47, 0], _, rfl, by decide⟩

theorem witness_EmittedEventsStayEmitted : ∃ w v : Session, Session.apply .reset w = .next v ∧ w.emitted ≠ [] :=
  ⟨{ core := { State.reset with output := [8] }, delivered := [1] }, _, rfl, by decide⟩

theorem witness_StoredByteIsFetchedNext :
    (∃ (s t : State) (r : Byte), s.run = .running ∧ s.mem.wf = true ∧ s.sp.toNat ≤ 256 ∧
      exec (.call r) s = .next t ∧ t.run ≠ .faulted ∧ s.sp = 256) ∧
    (∃ (s t : State) (r : Byte) (_ : r.toNat < 8), s.run = .running ∧ s.mem.wf = true ∧ s.sp.toNat ≤ 256 ∧
      s.cfg.opcodes.legal = true ∧ exec (.push r) s = .next t ∧ t.run ≠ .faulted ∧
      (s.pc.toNat : Int) + 2 = pushAddr s ∧ s.x[r.toNat] = s.cfg.opcodes.hlt) :=
  ⟨⟨{ start 0 [0x50, 0] with sp := 256 }, _, 0, rfl, by decide, by decide, rfl, by decide, rfl⟩,
   ⟨{ start 0xF1 [0x45, 0, 0xFF] with x := #v[1, 0, 0, 0, 0, 0, 0, 0] }, _, 0, by decide, rfl, by decide,
    by decide, by decide, rfl, by decide, by decide, by decide⟩⟩

/-- The state of vector J-3. -/
theorem witness_JmpToItselfNeverStops : ∃ (s : State) (r : Byte) (_ : r.toNat < 8), WordAtPc s .jmp ∧
    s.pc.toNat + 1 ≤ 255 ∧ s.mem.read (s.pc.toNat + 1) = r ∧ s.x[r.toNat].toNat = s.pc.toNat :=
  ⟨{ start 7 [0x54, 2] with x := #v[0, 0, 7, 0, 0, 0, 0, 0] }, 2, by decide,
   ⟨rfl, by decide, by decide, by decide⟩, by decide, by decide, by decide⟩

theorem witness_LoaderAcceptsImages :
    (∃ image : List Byte, 1 ≤ image.length ∧ image.length ≤ 256 ∧ 256 ≤ image.length) ∧
    (∃ image : List Byte, 256 < image.length ∧ image.length = 257) ∧
    (∃ lines image, parseProgram lines = .ok image) ∧ (∃ lines e, parseProgram lines = .error e) :=
  ⟨⟨List.replicate 256 1, (List.length_replicate ..).ge.trans' (by decide), (List.length_replicate ..).le,
     (List.length_replicate ..).ge⟩,
   ⟨List.replicate 257 1, (List.length_replicate ..).ge, List.length_replicate ..⟩,
   ⟨[['1']], [1], by decide⟩, ⟨[], .imageEmpty, by decide⟩⟩

/-- For StepKeepsInvariant and HostActionsKeepInvariant: a Running state with the invariant, and its step. -/
theorem witness_invariant_step : ∃ s t : State, s.Inv ∧ s.run = .running ∧ step s = .next t ∧
    hostApply .stepGrant s = .next t :=
  ⟨start 253 [0xA0, 0, 1], _, ⟨by decide, by decide, by decide, .inl rfl, rfl, by decide⟩, rfl, rfl, rfl⟩

/-- For HostActionsKeepInvariant: each action has its effect in a state with the invariant. -/
theorem witness_HostActionsKeepInvariant :
    (∃ s t : State, s.Inv ∧ hostApply .reset s = .next t ∧ t ≠ s) ∧
    (∃ s t : State, s.Inv ∧ hostApply (.load 255 9) s = .next t ∧ t ≠ s) ∧
    (∃ s t : State, s.Inv ∧ hostApply .start s = .next t ∧ t ≠ s) ∧
    (∃ s t : State, s.Inv ∧ hostApply .stepGrant s = .next t ∧ t ≠ s) ∧
    (∃ s t : State, s.Inv ∧ hostApply .observe s = .next t) :=
  have idle : State.reset.Inv := ⟨by decide, by decide, by decide, .inl rfl, rfl, by decide⟩
  have running : (start 253 [0xA0, 0, 1]).Inv := ⟨by decide, by decide, by decide, .inl rfl, rfl, by decide⟩
  ⟨⟨_, _, running, rfl, by decide⟩, ⟨_, _, idle, rfl, by decide⟩, ⟨_, _, idle, rfl, by decide⟩,
   ⟨_, _, running, rfl, by decide⟩, ⟨_, _, running, rfl⟩⟩

/-- For InvariantAtReset and EveryRunKeepsInvariant: a legal configuration at the edge of R6. -/
theorem witness_config : ∃ (c : Config) (image : List Byte), c.wf = true ∧ c.spReset = 256 ∧
    c.exposeSubDiv = true ∧ image.length ≤ 256 :=
  ⟨{ Config.fullTable with spReset := 256 }, [0x01], by decide, rfl, rfl, by decide⟩

theorem witness_PlacedWordRunsNext : ∃ (s : State) (nbits w : Nat) (i : Instr), s.mem.wf = true ∧
    decodeTableWord nbits w = some i ∧ s.pc = 254 :=
  ⟨{ State.reset with pc := 254 }, 24, 0x0100A3, .div 0 1, by decide, by decide, rfl⟩

end Sys2Proof.Tests
end

namespace Sys2Proof.Machine

/-- Settles O6: the memory laws give each primitive's answer inside the range, and its `OutOfRange` outside it. -/
theorem memoryRangeCheck : Obligations.MemoryRangeCheck := by
  intro s addr v
  refine ⟨fun inRange => ⟨memRead_ok inRange, memWrite_ok inRange⟩, fun outside => ?_⟩
  have notInRange : ¬ (0 ≤ addr ∧ addr ≤ 255) := by omega
  exact ⟨memRead_error notInRange, memWrite_error notInRange⟩

end Sys2Proof.Machine

/-! ### The rules of the state (10_state.md): what every step does to each field -/

namespace Sys2Proof.Machine

open Sys2Proof.Stmt

/-! #### The ends of an instruction -/

@[simp] theorem commit_run (i : Instr) (s t : State) : (commit i s t).run = t.run := by
  obtain ⟨p, e⟩ := commit_eq_withPc i s t
  rw [e, State.withPc_run]

@[simp] theorem commit_stop (i : Instr) (s t : State) : (commit i s t).stop = t.stop := by
  obtain ⟨p, e⟩ := commit_eq_withPc i s t
  rw [e, State.withPc_stop]

/-- The errors an instruction raises have three of the causes of R271 (R275). -/
theorem cause_of_raised {e : CoreError} (h : Raised e) :
    e.cause = .outOfRange ∨ e.cause = .invalidRegister ∨ e.cause = .divisionByZero := by
  cases e with
  | outOfRange addr => exact .inl rfl
  | invalidRegister index => exact .inr (.inl rfl)
  | divisionByZero divisor => exact .inr (.inr rfl)
  | unsupportedOperation sel => exact absurd rfl (h sel)

/-! #### What an instruction and a step answer, from the next state -/

/-- The state HLT leaves (R147, R200). -/
def haltedByHlt (s : State) : State :=
  (s.withPc (pcAfter s 1)).stopped .halted (haltRecord .hltExecuted .execute s.pc (wordOf .hlt s))

/-- `exec_cases` read from the next state. -/
theorem exec_next {i : Instr} {s t : State} (h : exec i s = .next t) :
    (∃ e, Raised e ∧ t = takeFault s e .execute (wordOf i s) i.operandBytes) ∨
    (i ≠ .hlt ∧ ∃ u, Writes i s u ∧ t = commit i s u) ∨
    (i = .hlt ∧ t = haltedByHlt s) := by
  rcases exec_cases i s with ⟨e, he, h'⟩ | ⟨hi, u, hu, h'⟩ | ⟨hi, h'⟩ <;> rw [h] at h' <;> cases h'
  · exact .inl ⟨e, he, rfl⟩
  · exact .inr (.inl ⟨hi, u, hu, rfl⟩)
  · exact .inr (.inr ⟨hi, rfl⟩)

/-- A failed fetch is an `OutOfRange` of one of the two fetch phases (R141, R144). -/
theorem fetch_failed {s : State} {e : CoreError} {phase : StopPhase} {w : Byte} {ops : List Byte}
    (h : fetch s = .failed e phase w ops) : Raised e ∧ phase ≠ .decode := by
  rcases fetch_cases s with ⟨_, h'⟩ | ⟨_, _, h'⟩ | ⟨row, _, _, ⟨_, h'⟩ | ⟨_, h'⟩⟩ <;>
    rw [h] at h' <;> cases h'
  · exact ⟨raised_outOfRange _, by decide⟩
  · exact ⟨raised_outOfRange _, by decide⟩

/-- Everything a step can do, from the next state: nothing outside Running; a fatal error, an orderly stop
or a committed instruction in Running (R140, R147). -/
theorem step_next {s t : State} (h : step s = .next t) :
    (s.run ≠ .running ∧ t = s) ∨
    (s.run = .running ∧
      ((∃ e phase w ops, Raised e ∧ phase ≠ .decode ∧ t = takeFault s e phase w ops) ∨
       (∃ w, fetch s = .unrecognized w ∧ t = haltUnrecognized s w) ∨
       (fetch s = .instr .hlt ∧ t = haltedByHlt s) ∨
       (∃ i u, fetch s = .instr i ∧ Writes i s u ∧ t = commit i s u))) := by
  rcases step_cases s with ⟨hr, h'⟩ | ⟨hr, ⟨e, phase, w, ops, hf, h'⟩ | ⟨w, hf, h'⟩ | ⟨i, hf, h'⟩⟩ <;>
    rw [h] at h'
  · cases h'; exact .inl ⟨hr, rfl⟩
  · cases h'
    obtain ⟨he, hphase⟩ := fetch_failed hf
    exact .inr ⟨hr, .inl ⟨e, phase, w, ops, he, hphase, rfl⟩⟩
  · cases h'; exact .inr ⟨hr, .inr (.inl ⟨w, hf, rfl⟩)⟩
  · refine .inr ⟨hr, ?_⟩
    rcases exec_next h'.symm with ⟨e, he, ht⟩ | ⟨_, u, hu, ht⟩ | ⟨rfl, ht⟩
    · exact .inl ⟨e, _, _, _, he, by decide, ht⟩
    · exact .inr (.inr (.inr ⟨i, u, hf, hu, ht⟩))
    · exact .inr (.inr (.inl ⟨hf, ht⟩))

/-! #### What an instruction can change, field by field -/

/-- The two states agree in every field but `pc`, `run` and the stop record. -/
structure SameData (s t : State) : Prop where
  x : t.x = s.x
  fl : t.fl = s.fl
  sp : t.sp = s.sp
  mem : t.mem = s.mem
  output : t.output = s.output
  cfg : t.cfg = s.cfg

/-- What `i` may have changed from `s` to `t` besides `pc`, `run` and the stop record: the destination
register (R32), the flags in a CMP (R41), `sp` by 1 in a stack operation (R39), the byte at the push
address (R71), one output event in a PRN (R52); never the configuration. -/
structure Effect (i : Instr) (s t : State) : Prop where
  x : t.x = s.x ∨
    ∃ (r v : Byte) (_ : r.toNat < 8), destReg i = some r ∧ t.x = s.x.set r.toNat v
  fl : t.fl = s.fl ∨
    ∃ (ra rb : Byte) (_ : ra.toNat < 8) (_ : rb.toNat < 8),
      i = .cmp ra rb ∧ t.fl = cmpFlags s.x[ra.toNat] s.x[rb.toNat]
  sp : t.sp = s.sp ∨
    (i.op = .push ∨ i.op = .call) ∧ t.sp.toNat + 1 = s.sp.toNat ∨
    (i.op = .pop ∨ i.op = .ret) ∧ t.sp.toNat = s.sp.toNat + 1 ∧ t.sp.toNat ≤ 256
  mem : t.mem = s.mem ∨
    (i.op = .push ∨ i.op = .call) ∧
      ∃ (a : Nat) (b : Byte), a < 256 ∧ (a : Int) = pushAddr s ∧ t.mem = s.mem.write a b
  output : t.output = s.output ∨
    ∃ (r : Byte) (_ : r.toNat < 8), i = .prn r ∧ t.output = s.output ++ [s.x[r.toNat]]
  cfg : t.cfg = s.cfg

theorem SameData.effect {s t : State} (h : SameData s t) (i : Instr) : Effect i s t :=
  ⟨.inl h.x, .inl h.fl, .inl h.sp, .inl h.mem, .inl h.output, h.cfg⟩

theorem SameData.refl (s : State) : SameData s s := ⟨rfl, rfl, rfl, rfl, rfl, rfl⟩

theorem sameData_withPc (s : State) (p : Addr9) : SameData s (s.withPc p) := ⟨rfl, rfl, rfl, rfl, rfl, rfl⟩

theorem sameData_takeFault (s : State) (e : CoreError) (phase : StopPhase) (w : Byte) (ops : List Byte) :
    SameData s (takeFault s e phase w ops) := ⟨rfl, rfl, rfl, rfl, rfl, rfl⟩

theorem sameData_haltUnrecognized (s : State) (w : Byte) : SameData s (haltUnrecognized s w) :=
  ⟨rfl, rfl, rfl, rfl, rfl, rfl⟩

theorem sameData_haltedByHlt (s : State) : SameData s (haltedByHlt s) := ⟨rfl, rfl, rfl, rfl, rfl, rfl⟩

/-- Writing the destination register. -/
theorem effect_withX {i : Instr} {r : Byte} (hd : destReg i = some r) (hr : r.toNat < 8) (s : State)
    (v : Byte) : Effect i s (s.withX (s.x.set r.toNat v)) :=
  ⟨.inr ⟨r, v, hr, hd, rfl⟩, .inl rfl, .inl rfl, .inl rfl, .inl rfl, rfl⟩

/-- Pushing a byte, with `pc` left as it was or set (R220, R241). -/
theorem effect_pushed {i : Instr} (hi : i.op = .push ∨ i.op = .call) {s : State} (h0 : 0 < s.sp.toNat)
    (h1 : s.sp.toNat ≤ 256) (v : Byte) (p : Addr9) :
    Effect i s (((s.withMem (s.mem.write (s.sp.toNat - 1) v)).withSp
      (BitVec.ofNat 9 (s.sp.toNat - 1))).withPc p) where
  x := .inl rfl
  fl := .inl rfl
  sp := .inr (.inl ⟨hi, by simp only [State.withPc_sp, State.withSp_sp, BitVec.toNat_ofNat]; omega⟩)
  mem := .inr ⟨hi, s.sp.toNat - 1, v, by omega, by simp only [pushAddr]; omega, rfl⟩
  output := .inl rfl
  cfg := rfl

/-- The stack pointer after a pop (R220). -/
theorem popped_sp_toNat {s : State} (h : s.sp.toNat ≤ 255) :
    (BitVec.ofNat 9 (s.sp.toNat + 1)).toNat = s.sp.toNat + 1 := by
  simp only [BitVec.toNat_ofNat]
  omega

/-- The writes of an instruction stay within its effect. -/
theorem writes_effect {i : Instr} {s t : State} (h : Writes i s t) : Effect i s t := by
  cases i <;> simp only [Writes] at h
  case hlt => subst h; exact (SameData.refl t).effect _
  case ret =>
    obtain ⟨h1, rfl⟩ := h
    have hsp := popped_sp_toNat h1
    exact ⟨.inl rfl, .inl rfl, .inr (.inr ⟨.inr rfl, hsp, hsp.trans_le (by omega)⟩), .inl rfl, .inl rfl, rfl⟩
  case push => obtain ⟨_, h0, h1, rfl⟩ := h; exact effect_pushed (.inl rfl) h0 h1 _ s.pc
  case pop r =>
    obtain ⟨hr, h1, rfl⟩ := h
    have hsp := popped_sp_toNat h1
    exact ⟨.inr ⟨r, _, hr, rfl, rfl⟩, .inl rfl, .inr (.inr ⟨.inl rfl, hsp, hsp.trans_le (by omega)⟩),
      .inl rfl, .inl rfl, rfl⟩
  case prn r =>
    obtain ⟨hr, rfl⟩ := h
    exact ⟨.inl rfl, .inl rfl, .inl rfl, .inl rfl, .inr ⟨r, hr, rfl, rfl⟩, rfl⟩
  case call => obtain ⟨_, h0, h1, _, rfl⟩ := h; exact effect_pushed (.inr rfl) h0 h1 _ _
  case jmp => obtain ⟨_, rfl⟩ := h; exact (sameData_withPc s _).effect _
  case jeq | jne => rcases h with ⟨_, rfl⟩ | rfl <;> exact (sameData_withPc s _).effect _
  case ldi => obtain ⟨hr, rfl⟩ := h; exact effect_withX rfl hr s _
  case cmp ra rb =>
    obtain ⟨ha, hb, rfl⟩ := h
    exact ⟨.inl rfl, .inr ⟨ra, rb, ha, hb, rfl, rfl⟩, .inl rfl, .inl rfl, .inl rfl, rfl⟩
  case add | mul | sub | div => obtain ⟨v, ha, _, rfl⟩ := h; exact effect_withX rfl ha s v

/-- The commit adds nothing to the writes but `pc`. -/
theorem Effect.after_commit {i : Instr} {s t : State} (h : Effect i s t) : Effect i s (commit i s t) := by
  obtain ⟨p, e⟩ := commit_eq_withPc i s t
  rw [e]
  exact ⟨h.x, h.fl, h.sp, h.mem, h.output, h.cfg⟩

/-- An instruction stays within its effect, whether it commits, faults or halts. -/
theorem exec_effect {i : Instr} {s t : State} (h : exec i s = .next t) : Effect i s t := by
  rcases exec_next h with ⟨e, _, rfl⟩ | ⟨_, u, hu, rfl⟩ | ⟨_, rfl⟩
  · exact (sameData_takeFault s e _ _ _).effect i
  · exact (writes_effect hu).after_commit
  · exact (sameData_haltedByHlt s).effect i

/-- A step changes nothing but `pc`, `run` and the stop record, or what its instruction may change. -/
theorem step_effect {s t : State} (h : step s = .next t) :
    SameData s t ∨ ∃ i, fetch s = .instr i ∧ Effect i s t := by
  rcases step_next h with
    ⟨_, rfl⟩ | ⟨_, ⟨e, phase, w, ops, _, _, rfl⟩ | ⟨w, _, rfl⟩ | ⟨_, rfl⟩ | ⟨i, u, hf, hu, rfl⟩⟩
  · exact .inl (SameData.refl t)
  · exact .inl (sameData_takeFault s e phase w ops)
  · exact .inl (sameData_haltUnrecognized s w)
  · exact .inl (sameData_haltedByHlt s)
  · exact .inr ⟨i, hf, (writes_effect hu).after_commit⟩

/-! #### The invariant, field by field -/

theorem flLegal_cmpFlags (a b : Byte) : FlLegal (cmpFlags a b) := by
  unfold cmpFlags
  split
  · exact .inr (.inl rfl)
  · split
    · exact .inr (.inr (.inl rfl))
    · exact .inr (.inr (.inr rfl))

theorem step_keeps_cfg {s t : State} (h : step s = .next t) : t.cfg = s.cfg := by
  rcases step_effect h with same | ⟨i, _, eff⟩
  · exact same.cfg
  · exact eff.cfg

theorem step_keeps_mem_wf {s t : State} (hs : s.mem.wf = true) (h : step s = .next t) :
    t.mem.wf = true := by
  rcases step_effect h with same | ⟨i, _, eff⟩
  · rwa [same.mem]
  · rcases eff.mem with e | ⟨_, a, b, ha, _, e⟩ <;> rw [e]
    · exact hs
    · exact Memory.wf_write hs ha b

theorem step_keeps_sp_le {s t : State} (hs : s.sp.toNat ≤ 256) (h : step s = .next t) :
    t.sp.toNat ≤ 256 := by
  rcases step_effect h with same | ⟨i, _, eff⟩
  · rwa [same.sp]
  · rcases eff.sp with e | ⟨_, down⟩ | ⟨_, _, le⟩
    · rwa [e]
    · omega
    · exact le

theorem step_keeps_flLegal {s t : State} (hs : FlLegal s.fl) (h : step s = .next t) : FlLegal t.fl := by
  rcases step_effect h with same | ⟨i, _, eff⟩
  · rwa [same.fl]
  · rcases eff.fl with e | ⟨ra, rb, _, _, _, e⟩ <;> rw [e]
    · exact hs
    · exact flLegal_cmpFlags _ _

/-- Where a committed instruction leaves `pc`: at a byte's value, or just after the instruction (R142,
R148, R240). -/
theorem commit_pc {i : Instr} {s t : State} (h : Writes i s t) :
    (∃ b : Byte, (commit i s t).pc = zext9 b) ∨ (commit i s t).pc = pcAfter s (i.op.operands + 1) := by
  cases hset : i.op.setsPc with
  | false => exact .inr (by rw [commit_advances hset, State.withPc_pc])
  | true =>
    rw [commit_setsPc hset]
    cases i <;> simp only [Writes] at h
    case ret => obtain ⟨_, rfl⟩ := h; exact .inl ⟨_, rfl⟩
    case call => obtain ⟨_, _, _, _, rfl⟩ := h; exact .inl ⟨_, rfl⟩
    case jmp => obtain ⟨_, rfl⟩ := h; exact .inl ⟨_, rfl⟩
    case jeq | jne =>
      rcases h with ⟨_, rfl⟩ | rfl
      · exact .inl ⟨_, rfl⟩
      · exact .inr rfl
    all_goals cases hset

/-- An instruction the fetch unit gives ends inside memory, so the address after it is at most 256. -/
theorem pcAfter_le_of_fetch {s : State} {i : Instr} (h : fetch s = .instr i) :
    (pcAfter s (i.op.operands + 1)).toNat ≤ 256 := by
  obtain ⟨inside, -, -, -⟩ := fetch_instr h
  rw [pcAfter_toNat (by omega)]
  omega

theorem step_keeps_pc_le {s t : State} (hs : s.pc.toNat ≤ 256) (h : step s = .next t) :
    t.pc.toNat ≤ 256 := by
  rcases step_next h with
    ⟨_, rfl⟩ | ⟨_, ⟨e, phase, w, ops, _, _, rfl⟩ | ⟨w, _, rfl⟩ | ⟨hf, rfl⟩ | ⟨i, u, hf, hu, rfl⟩⟩
  · exact hs
  · exact hs
  · exact hs
  · exact pcAfter_le_of_fetch hf
  · rcases commit_pc hu with ⟨b, e⟩ | e <;> rw [e]
    · have := b.isLt
      rw [zext9_toNat]
      omega
    · exact pcAfter_le_of_fetch hf

/-- The stop record keeps agreeing with the run state: a step writes it only as it leaves Running (R46). -/
theorem step_keeps_stopAgrees {s t : State} (hs : StopAgrees s) (h : step s = .next t) :
    StopAgrees t := by
  rcases step_next h with
    ⟨_, rfl⟩ | ⟨hrun, ⟨e, phase, w, ops, he, hphase, rfl⟩ | ⟨w, _, rfl⟩ | ⟨hf, rfl⟩ | ⟨i, u, _, hu, rfl⟩⟩
  · exact hs
  · exact ⟨cause_of_raised he, hphase, rfl⟩
  · exact .inr ⟨rfl, rfl, rfl⟩
  · obtain ⟨inside, -, -, -⟩ := fetch_instr hf
    exact .inl ⟨rfl, rfl, pcAfter_toNat (by omega)⟩
  · obtain ⟨urun, ustop, -⟩ := writes_keep_run hu
    simp only [StopAgrees, hrun, commit_run, commit_stop, urun, ustop] at hs ⊢
    exact hs

/-- Settles O57: each field of the invariant is kept by every step. -/
theorem stepKeepsInvariant : Obligations.StepKeepsInvariant := by
  intro s t hs h
  exact {
    mem_wf := step_keeps_mem_wf hs.mem_wf h
    sp_le := step_keeps_sp_le hs.sp_le h
    pc_le := step_keeps_pc_le hs.pc_le h
    fl_legal := step_keeps_flLegal hs.fl_legal h
    stop_agrees := step_keeps_stopAgrees hs.stop_agrees h
    cfg_wf := by rw [step_keeps_cfg h]; exact hs.cfg_wf }

/-! #### The canonical form of memory -/

/-- The canonical form of a listed memory, cell by cell. -/
theorem Memory.wfFrom_cons {lo k : Nat} {v : Byte} {m : Memory} :
    Memory.wfFrom lo ((k, v) :: m) = true ↔
      lo ≤ k ∧ k < 256 ∧ v ≠ Memory.unlisted ∧ m.wfFrom (k + 1) = true := by
  simp only [Memory.wfFrom, Bool.and_eq_true, decide_eq_true_eq, and_assoc]

/-- The first cell of a canonical memory is the lowest address that does not read as an unlisted one:
a canonical memory that reads the same has no first cell above it. -/
theorem Memory.first_cell_le {lo k k' : Nat} {v v' : Byte} {m m' : Memory}
    (h : Memory.wfFrom lo ((k, v) :: m) = true) (h' : Memory.wfFrom lo ((k', v') :: m') = true)
    (e : ∀ a, Memory.read ((k, v) :: m) a = Memory.read ((k', v') :: m') a) : k' ≤ k := by
  by_contra hlt
  obtain ⟨-, -, listed, -⟩ := Memory.wfFrom_cons.mp h
  obtain ⟨-, hk', listed', hm'⟩ := Memory.wfFrom_cons.mp h'
  have below : Memory.read ((k', v') :: m') k = Memory.unlisted :=
    Memory.read_of_lt (lo := k') (Memory.wfFrom_cons.mpr ⟨le_rfl, hk', listed', hm'⟩) (by omega)
  have hv := e k
  rw [below, Memory.read_cons, if_pos rfl] at hv
  exact listed hv

/-- A listed cell is seen by a read: no memory with one reads like the empty memory. -/
theorem Memory.cons_reads_ne_nil {lo k : Nat} {v : Byte} {m : Memory}
    (h : Memory.wfFrom lo ((k, v) :: m) = true) : Memory.read ((k, v) :: m) k ≠ Memory.read [] k := by
  obtain ⟨-, -, listed, -⟩ := Memory.wfFrom_cons.mp h
  rwa [Memory.read_cons, if_pos rfl]

/-- Canonical memories that read the same are the same list. -/
theorem Memory.eq_of_reads : {lo : Nat} → {m n : Memory} → m.wfFrom lo = true → n.wfFrom lo = true →
    (∀ a, m.read a = n.read a) → m = n
  | _, [], [], _, _, _ => rfl
  | _, [], (k, _) :: _, _, hn, e => absurd (e k).symm (Memory.cons_reads_ne_nil hn)
  | _, (k, _) :: _, [], hm, _, e => absurd (e k) (Memory.cons_reads_ne_nil hm)
  | lo, (k, v) :: m, (k', v') :: n, hm, hn, e => by
    obtain rfl : k = k' := Nat.le_antisymm (Memory.first_cell_le hn hm fun a => (e a).symm)
      (Memory.first_cell_le hm hn e)
    obtain ⟨-, -, -, hm'⟩ := Memory.wfFrom_cons.mp hm
    obtain ⟨-, -, -, hn'⟩ := Memory.wfFrom_cons.mp hn
    have hv : v = v' := by simpa [Memory.read_cons] using e k
    have hrest : m = n := Memory.eq_of_reads hm' hn' fun a => by
      by_cases ha : a ≤ k
      · rw [Memory.read_of_lt hm' (by omega), Memory.read_of_lt hn' (by omega)]
      · simpa [Memory.read_cons, show k ≠ a by omega] using e a
    rw [hv, hrest]

/-- Settles O8: by induction on the two lists, comparing their first cells. -/
theorem equalReadsEqualMemories : Obligations.EqualReadsEqualMemories :=
  fun _ _ hm hn e => Memory.eq_of_reads hm hn e

/-! #### Frames of the instructions -/

theorem Effect.keepsRegisters {i : Instr} {s t : State} (h : Effect i s t) : KeepsRegisters i s t := by
  refine ⟨fun k hk hdest => ?_, h.cfg⟩
  rcases h.x with e | ⟨r, v, hr, hd, e⟩
  · simp only [e]
  · have hne : r.toNat ≠ k := by
      rintro rfl
      exact hdest (by rw [hd, BitVec.ofNat_toNat, BitVec.setWidth_eq])
    simp only [e, Vector.getElem_set_ne hr hk hne]

theorem Effect.fl_of_ne_cmp {i : Instr} {s t : State} (h : Effect i s t) (hi : i.op ≠ .cmp) :
    t.fl = s.fl := by
  rcases h.fl with e | ⟨_, _, _, _, rfl, _⟩
  · exact e
  · exact absurd rfl hi

theorem Effect.output_of_ne_prn {i : Instr} {s t : State} (h : Effect i s t) (hi : i.op ≠ .prn) :
    t.output = s.output := by
  rcases h.output with e | ⟨_, _, rfl, _⟩
  · exact e
  · exact absurd rfl hi

/-- Only PUSH, POP, CALL and RET move `sp`. -/
theorem Effect.sp_of_not_stack {i : Instr} {s t : State} (h : Effect i s t)
    (hi : i.op ∉ [Op.push, .pop, .call, .ret]) : t.sp = s.sp := by
  rcases h.sp with e | ⟨hop | hop, _⟩ | ⟨hop | hop, _⟩
  · exact e
  all_goals exact absurd (by simp [hop]) hi

/-- Only PUSH and CALL write memory. -/
theorem Effect.keepsMemory {i : Instr} {s t : State} (h : Effect i s t)
    (hi : i.op ∉ [Op.push, .call]) : KeepsMemory s t := by
  rcases h.mem with e | ⟨hop | hop, _⟩
  · exact fun a => by rw [e]
  all_goals exact absurd (by simp [hop]) hi

/-- No byte but the one at the push address changes. -/
theorem Effect.mem_read_other {i : Instr} {s t : State} (h : Effect i s t) {a : Nat}
    (ha : (a : Int) ≠ pushAddr s) : t.mem.read a = s.mem.read a := by
  rcases h.mem with e | ⟨_, k, b, _, hk, e⟩ <;> rw [e]
  exact Memory.read_write_other (by omega) b s.mem

/-- No instruction but HLT leaves Running without a fatal error (R46). -/
theorem exec_keepsRunUnlessFault {i : Instr} {s t : State} (h : exec i s = .next t)
    (hi : i.op ≠ .hlt) : KeepsRunUnlessFault s t := by
  rcases exec_next h with ⟨e, _, rfl⟩ | ⟨_, u, hu, rfl⟩ | ⟨rfl, _⟩
  · exact .inr rfl
  · obtain ⟨urun, ustop, -⟩ := writes_keep_run hu
    exact .inl ⟨by rw [commit_run, urun], by rw [commit_stop, ustop]⟩
  · exact absurd rfl hi

/-- Settles O43: none of these instructions is a stack operation or a PRN, so their effect is on the
destination register and, in a CMP, on the flags. -/
theorem frameAluAndLoad : Obligations.FrameAluAndLoad := by
  intro i s t hi h
  have eff := exec_effect h
  have other : i.op ∉ [Op.push, .pop, .call, .ret] ∧ i.op ∉ [Op.push, .call] ∧ i.op ≠ .prn ∧
      i.op ≠ .hlt := by
    revert hi
    cases i.op <;> decide
  obtain ⟨notStack, notPush, notPrn, notHlt⟩ := other
  exact ⟨eff.keepsRegisters, eff.fl_of_ne_cmp, eff.sp_of_not_stack notStack,
    eff.output_of_ne_prn notPrn, eff.keepsMemory notPush, exec_keepsRunUnlessFault h notHlt⟩

/-- Settles O44: none of these instructions is a stack operation or a CMP. -/
theorem frameOutputHaltJump : Obligations.FrameOutputHaltJump := by
  intro i s t hi h
  have eff := exec_effect h
  have other : i.op ∉ [Op.push, .pop, .call, .ret] ∧ i.op ∉ [Op.push, .call] ∧ i.op ≠ .cmp := by
    revert hi
    cases i.op <;> decide
  obtain ⟨notStack, notPush, notCmp⟩ := other
  exact ⟨eff.keepsRegisters, eff.fl_of_ne_cmp notCmp, eff.sp_of_not_stack notStack,
    eff.output_of_ne_prn, eff.keepsMemory notPush, exec_keepsRunUnlessFault h⟩

/-- Settles O45: none of these instructions is a CMP, a PRN or HLT. -/
theorem frameStackAndCall : Obligations.FrameStackAndCall := by
  intro i s t hi h
  have eff := exec_effect h
  have other : i.op ≠ .cmp ∧ i.op ≠ .prn ∧ i.op ≠ .hlt := by
    revert hi
    cases i.op <;> decide
  obtain ⟨notCmp, notPrn, notHlt⟩ := other
  refine ⟨eff.keepsRegisters, eff.fl_of_ne_cmp notCmp, eff.output_of_ne_prn notPrn,
    exec_keepsRunUnlessFault h notHlt, fun _ a => eff.mem_read_other, fun hop => ?_, ?_⟩
  · exact eff.keepsMemory (by rcases hop with hop | hop <;> simp [hop])
  · rcases eff.sp with same | ⟨_, down⟩ | ⟨_, up, _⟩
    · exact .inl same
    · exact .inr (.inl down)
    · exact .inr (.inr up)

/-! #### What a step can do to the run state, the flags, `sp` and the output -/

/-- Settles O47: the codes are those of the definitions, and the four ends of a step in Running are the
cases of the step. -/
theorem runStateTransitions : Obligations.RunStateTransitions := by
  refine ⟨rfl, rfl, rfl, fun s t h => ?_⟩
  rcases step_next h with
    ⟨hrun, rfl⟩ | ⟨hrun, ⟨e, phase, w, ops, he, _, rfl⟩ | ⟨w, hf, rfl⟩ | ⟨hf, rfl⟩ | ⟨i, u, _, hu, rfl⟩⟩
  · exact ⟨fun _ => rfl, fun running => absurd running hrun⟩
  · refine ⟨fun other => absurd hrun other, fun _ => .inr (.inr (.inr ⟨rfl, ?_⟩))⟩
    change e.cause ≠ _ ∧ e.cause ≠ _ ∧ e.cause ≠ _ ∧ e.cause ≠ _
    rcases cause_of_raised he with hc | hc | hc <;> rw [hc] <;> decide
  · exact ⟨fun other => absurd hrun other, fun _ => .inr (.inr (.inl ⟨rfl, rfl, w, hf⟩))⟩
  · exact ⟨fun other => absurd hrun other, fun _ => .inr (.inl ⟨rfl, rfl, hf⟩)⟩
  · obtain ⟨urun, ustop, -⟩ := writes_keep_run hu
    exact ⟨fun other => absurd hrun other,
      fun _ => .inl ⟨by rw [commit_run, urun, hrun], by rw [commit_stop, ustop]⟩⟩

/-- A CMP of two registers writes their comparison into the flags and advances `pc` (R177, R178). -/
theorem exec_cmp_of_lt {ra rb : Byte} (ha : ra.toNat < 8) (hb : rb.toNat < 8) (s : State) :
    exec (.cmp ra rb) s =
      .next ((s.withFl (cmpFlags s.x[ra.toNat] s.x[rb.toNat])).withPc (pcAfter s 3)) := by
  have e : aluExec selCmp ra rb s = .ok (s.withFl (cmpFlags s.x[ra.toNat] s.x[rb.toNat])) := by
    rcases aluExec_cases selCmp ra rb s with ⟨h, _⟩ | ⟨_, h, _⟩ | ⟨_, _, h⟩
    · omega
    · omega
    · exact h
  change finish _ s (aluExec selCmp ra rb s) = _
  rw [e]
  rfl

/-- A CMP that names no register 0..7 in one of its operands faults (R177, R188). -/
theorem exec_cmp_of_ge {ra rb : Byte} (h : 8 ≤ ra.toNat ∨ 8 ≤ rb.toNat) (s : State) :
    exec (.cmp ra rb) s =
      .next (takeFault s (.invalidRegister (if 8 ≤ ra.toNat then ra else rb)) .execute
        (wordOf (.cmp ra rb) s) [ra, rb]) := by
  have e : aluExec selCmp ra rb s = .error (.invalidRegister (if 8 ≤ ra.toNat then ra else rb)) := by
    rcases aluExec_cases selCmp ra rb s with ⟨ha, e⟩ | ⟨ha, _, e⟩ | ⟨_, _, _⟩
    · rw [e, if_pos ha]
    · rw [e, if_neg (by omega)]
    · omega
  change finish _ s (aluExec selCmp ra rb s) = _
  rw [e]
  rfl

/-- The comparison sets exactly one flag (R41, R178). -/
theorem cmpFlags_exactly_one (a b : Byte) :
    (flagL (cmpFlags a b) = true ∧ flagG (cmpFlags a b) = false ∧ flagE (cmpFlags a b) = false) ∨
    (flagL (cmpFlags a b) = false ∧ flagG (cmpFlags a b) = true ∧ flagE (cmpFlags a b) = false) ∨
    (flagL (cmpFlags a b) = false ∧ flagG (cmpFlags a b) = false ∧ flagE (cmpFlags a b) = true) := by
  unfold cmpFlags
  split
  · exact .inl (by decide)
  · split
    · exact .inr (.inl (by decide))
    · exact .inr (.inr (by decide))

/-- Settles O48: the flags are in the effect of CMP alone, and a CMP that completes writes a comparison. -/
theorem onlyCmpWritesFlags : Obligations.OnlyCmpWritesFlags := by
  refine ⟨fun s t h hne => ?_, fun s t ra rb ha hb h => ?_⟩
  · rcases step_effect h with same | ⟨i, hf, eff⟩
    · exact absurd same.fl hne
    · rcases eff.fl with e | ⟨ra, rb, _, _, rfl, _⟩
      · exact absurd e hne
      · exact ⟨ra, rb, hf⟩
  · rw [exec_cmp_of_lt ha hb] at h
    cases h
    exact cmpFlags_exactly_one _ _

/-- Settles O50: `sp` is in the effect of the stack operations alone. -/
theorem onlyStackOpsMoveSp : Obligations.OnlyStackOpsMoveSp := by
  intro s t h hne
  rcases step_effect h with same | ⟨i, hf, eff⟩
  · exact absurd same.sp hne
  · rcases eff.sp with e | down | ⟨hop, up, _⟩
    · exact absurd e hne
    · exact ⟨i, hf, .inl down⟩
    · exact ⟨i, hf, .inr ⟨hop, up⟩⟩

/-- Settles O51: the output is in the effect of PRN alone. -/
theorem onlyPrnEmits : Obligations.OnlyPrnEmits := by
  refine ⟨fun s t h hne => ?_, fun _ => rfl⟩
  rcases step_effect h with same | ⟨i, hf, eff⟩
  · exact absurd same.output hne
  · rcases eff.output with e | ⟨r, hr, rfl, e⟩
    · exact absurd e hne
    · exact ⟨r, hr, hf, e⟩

/-- Settles O9: the register laws inside the index range and outside it. -/
theorem registerIndexCheck : Obligations.RegisterIndexCheck := by
  intro s r v
  refine ⟨fun hr => ⟨readReg_of_lt hr, _, writeReg_of_lt hr, ?_, fun k hk hne => ?_⟩,
    fun hr => ⟨readReg_of_ge hr, writeReg_of_ge hr⟩⟩
  · exact Vector.getElem_set_self hr
  · exact Vector.getElem_set_ne hr hk hne.symm

/-! #### What reads the flags -/

/-- An execute phase that neither reads nor writes the flags: with other flags it ends the same, with
those flags. -/
def FlagBlind (r : State → Exec State) (s : State) (f : FlagBits) : Prop :=
  r (s.withFl f) = (r s).map (·.withFl f)

theorem commit_withFl (i : Instr) (s t : State) (f : FlagBits) :
    commit i (s.withFl f) (t.withFl f) = (commit i s t).withFl f := by
  cases h : i.op.setsPc
  · rw [commit_advances h, commit_advances h]; rfl
  · rw [commit_setsPc h, commit_setsPc h]

/-- The end of an instruction keeps other flags apart when its execute phase does. -/
theorem FlagBlind.finish_next {r : State → Exec State} {s : State} {f : FlagBits} (h : FlagBlind r s f)
    (i : Instr) {t : State} (ht : finish i s (r s) = .next t) :
    finish i (s.withFl f) (r (s.withFl f)) = .next (t.withFl f) := by
  rw [h]
  cases e : r s with
  | ok u =>
    rw [e, finish_ok] at ht
    cases ht
    exact congrArg _ (commit_withFl i s u f)
  | error err =>
    rw [e, finish_error] at ht
    cases ht
    rfl

/-- A computation that gives `s` and `s` with other flags the same value, then a flag-blind one. -/
theorem flagBlind_bind {α : Type} {m : State → Exec α} {k : α → State → Exec State} {s : State}
    {f : FlagBits} (hm : m (s.withFl f) = m s) (hk : ∀ a, FlagBlind (k a) s f) :
    FlagBlind (fun s => m s >>= fun a => k a s) s f := by
  simp only [FlagBlind, hm]
  cases m s with
  | ok a => exact hk a
  | error e => rfl

theorem flagBlind_jumpTo (r : Byte) (s : State) (f : FlagBits) : FlagBlind (jumpTo r) s f :=
  flagBlind_bind (m := (readReg · r)) rfl fun _ => rfl

/-- A conditional jump reads the flags in its condition alone. -/
theorem flagBlind_branch (taken : Bool) (r : Byte) (s : State) (f : FlagBits) :
    FlagBlind (branch taken r) s f := by
  cases taken
  · rfl
  · exact flagBlind_jumpTo r s f

/-- A flag-blind execute phase stays so when a flag-blind update of the state follows. -/
theorem FlagBlind.andThen {r : State → Exec State} {s : State} {f : FlagBits} (h : FlagBlind r s f)
    {g : State → State} (hg : ∀ t, g (t.withFl f) = (g t).withFl f) :
    FlagBlind (fun s => r s >>= fun t => pure (g t)) s f := by
  simp only [FlagBlind] at h ⊢
  rw [h]
  cases r s with
  | ok t => exact congrArg Except.ok (hg t)
  | error e => rfl

theorem flagBlind_memWrite (addr : Int) (v : Byte) (s : State) (f : FlagBits) :
    FlagBlind (memWrite · addr v) s f :=
  flagBlind_bind (m := fun _ => checkRange addr) rfl fun _ => rfl

theorem flagBlind_pushByte (v : Byte) (s : State) (f : FlagBits) : FlagBlind (pushByte · v) s f :=
  (flagBlind_memWrite (pushAddr s) v s f).andThen
    (g := fun t => t.withSp (BitVec.ofInt 9 (pushAddr s))) fun _ => rfl

/-- A pop and what is done with the byte and the state it gives. -/
theorem flagBlind_popByte {k : Byte × State → Exec State} {f : FlagBits}
    (hk : ∀ v t, k (v, t.withFl f) = (k (v, t)).map (·.withFl f)) (s : State) :
    FlagBlind (fun s => popByte s >>= k) s f := by
  simp only [FlagBlind]
  rcases popByte_cases s with ⟨h, e⟩ | ⟨h, e⟩
  · rw [e, popByte_ok (s := s.withFl f) h]
    exact hk (s.mem.read s.sp.toNat) (s.withSp (BitVec.ofNat 9 (s.sp.toNat + 1)))
  · rw [e, popByte_error (s := s.withFl f) h]
    rfl

theorem alu_fl_of_ne_cmp {sel : BitVec 3} (h : sel ≠ selCmp) (a b : Byte) : (alu sel a b).fl = none := by
  simp only [alu, if_neg h]
  repeat' split
  all_goals rfl

theorem flagBlind_aluWriteBack (ra : Byte) {o : AluOut} (h : o.fl = none) (s : State) (f : FlagBits) :
    FlagBlind (aluWriteBack · ra o) s f := by
  obtain ⟨result, fl, err⟩ := o
  obtain rfl : fl = none := h
  cases result with
  | none => rfl
  | some v =>
    have write : FlagBlind (writeResult · ra (some v)) s f :=
      flagBlind_bind (m := (writeReg · ra v)) (k := fun x s => pure (s.withX x)) rfl fun _ => rfl
    exact write.andThen (g := id) fun _ => rfl

/-- ADD, SUB, MUL and DIV neither read nor write the flags. -/
theorem flagBlind_aluExec {sel : BitVec 3} (h : sel ≠ selCmp) (ra rb : Byte) (s : State) (f : FlagBits) :
    FlagBlind (aluExec sel ra rb) s f := by
  refine flagBlind_bind (m := (readReg · ra)) rfl fun a => ?_
  refine flagBlind_bind (m := (readReg · rb)) rfl fun b => ?_
  have write := flagBlind_aluWriteBack ra (alu_fl_of_ne_cmp h a b) s f
  simp only [FlagBlind] at write ⊢
  split
  · rfl
  · rfl
  · exact write

/-- Every instruction but CMP, and JEQ and JNE only of E, is blind to the flags (R42). -/
theorem exec_withFl {i : Instr} {s t : State} {f : FlagBits} (notCmp : i.op ≠ .cmp)
    (sameE : flagE f = flagE s.fl ∨ (i.op ≠ .jeq ∧ i.op ≠ .jne)) (h : exec i s = .next t) :
    exec i (s.withFl f) = .next (t.withFl f) := by
  cases i with
  | hlt => cases h; rfl
  | ret => exact FlagBlind.finish_next (flagBlind_popByte (fun _ _ => rfl) s) .ret h
  | push r =>
    have blind : FlagBlind (fun s => do let v ← readReg s r; pushByte s v) s f :=
      flagBlind_bind rfl fun v => flagBlind_pushByte v s f
    exact blind.finish_next (.push r) h
  | pop r =>
    have blind : FlagBlind (fun s => do
        checkReg r
        let (v, t) ← popByte s
        let x ← writeReg t r v
        return t.withX x) s f := by
      refine flagBlind_bind rfl fun _ => flagBlind_popByte ?_ s
      intro v t
      exact flagBlind_bind (s := t) (m := (writeReg · r v)) (k := fun x t => pure (t.withX x)) rfl
        fun _ => rfl
    exact blind.finish_next (.pop r) h
  | prn r =>
    have blind : FlagBlind (fun s => do let v ← readReg s r; return s.emit v) s f :=
      flagBlind_bind (k := fun v s => pure (s.emit v)) rfl fun _ => rfl
    exact blind.finish_next (.prn r) h
  | call r =>
    have blind : FlagBlind (fun s => do
        let target ← readReg s r
        checkRange (pushAddr s)
        let ret ← returnAddress s
        let t ← pushByte s ret
        return t.withPc (zext9 target)) s f :=
      flagBlind_bind rfl fun _ => flagBlind_bind rfl fun _ => flagBlind_bind rfl fun ret =>
        (flagBlind_pushByte ret s f).andThen fun _ => rfl
    exact blind.finish_next (.call r) h
  | jmp r => exact (flagBlind_jumpTo r s f).finish_next (.jmp r) h
  | jeq r =>
    have hE : flagE f = flagE s.fl := by simpa [Instr.op] using sameE
    refine FlagBlind.finish_next (r := fun s => branch (flagE s.fl) r s) ?_ (.jeq r) h
    simpa only [FlagBlind, State.withFl_fl, hE] using flagBlind_branch (flagE s.fl) r s f
  | jne r =>
    have hE : flagE f = flagE s.fl := by simpa [Instr.op] using sameE
    refine FlagBlind.finish_next (r := fun s => branch (!flagE s.fl) r s) ?_ (.jne r) h
    simpa only [FlagBlind, State.withFl_fl, hE] using flagBlind_branch (!flagE s.fl) r s f
  | ldi r imm8 =>
    have blind : FlagBlind (fun s => do let x ← writeReg s r (immediate imm8); return s.withX x) s f :=
      flagBlind_bind (k := fun x s => pure (s.withX x)) rfl fun _ => rfl
    exact blind.finish_next (.ldi r imm8) h
  | add ra rb => exact (flagBlind_aluExec (by decide) ra rb s f).finish_next (.add ra rb) h
  | sub ra rb => exact (flagBlind_aluExec (by decide) ra rb s f).finish_next (.sub ra rb) h
  | mul ra rb => exact (flagBlind_aluExec (by decide) ra rb s f).finish_next (.mul ra rb) h
  | div ra rb => exact (flagBlind_aluExec (by decide) ra rb s f).finish_next (.div ra rb) h
  | cmp ra rb => exact absurd rfl notCmp

/-- Settles O49: all but CMP are blind to the flags, and CMP answers by its two cases. -/
theorem flagReadersReadOnlyE : Obligations.FlagReadersReadOnlyE := by
  intro i s t u f sameE ht hu
  change exec i (s.withFl f) = .next u at hu
  refine ⟨fun notCmp => ?_, ?_⟩
  · have := exec_withFl notCmp sameE ht
    rw [hu] at this
    cases this
    rfl
  · rintro ra rb rfl
    refine ⟨fun ⟨ha, hb⟩ => ?_, fun outside => ?_⟩
    · rw [exec_cmp_of_lt ha hb] at ht hu
      cases ht
      cases hu
      rfl
    · rw [exec_cmp_of_ge outside] at ht hu
      cases ht
      cases hu
      rfl

end Sys2Proof.Machine

/-! ### Memory as the instructions use it (20_memory.md): a stored byte is read and fetched next -/

namespace Sys2Proof.Machine

open Sys2Proof.Stmt

/-- Settles O7: the laws of a write, for the canonical form and for each address read. -/
theorem writeChangesOneByte : Obligations.WriteChangesOneByte := by
  intro m a v hm ha
  refine ⟨Memory.wf_write hm ha v, fun b => ?_⟩
  simp only [Memory.read_write hm, eq_comm]

/-! #### Fetching a word of the table -/

/-- In a legal map the lookup of a word finds its own row, where the table has it (R107, R108). -/
theorem lookup_word {c : Config} {op : Op} (legal : c.opcodes.legal = true) (h : c.hasRow op = true) :
    lookup c (c.opcodes.word op) = some (c.row op) := by
  obtain ⟨row, found⟩ := Option.isSome_iff_exists.mp (lookup_isSome h)
  obtain ⟨hrow, -, hword⟩ := lookup_some found
  rw [found, hrow, legal_injective legal hword]

/-- The fetch of a word of the table whose operands lie inside memory (R144). -/
theorem fetch_of_wordAtPc {s : State} {op : Op} (h : WordAtPc s op) (hrow : s.cfg.hasRow op = true)
    (inside : s.pc.toNat + op.operands ≤ 255) :
    fetch s = .instr (op.build (s.mem.read (s.pc.toNat + 1)) (s.mem.read (s.pc.toNat + 2))) := by
  have found : lookup s.cfg (s.mem.read s.pc.toNat) = some (s.cfg.row op) := by
    rw [h.word, lookup_word h.legal hrow]
  rcases fetch_cases s with ⟨above, _⟩ | ⟨_, missing, _⟩ | ⟨row, _, hl, ends⟩
  · exact absurd h.inMemory (by omega)
  · rw [found] at missing
    cases missing
  · obtain rfl : s.cfg.row op = row := Option.some.inj (found.symm.trans hl)
    rcases ends with ⟨_, e⟩ | ⟨past, _⟩
    · exact e
    · exact absurd inside (Nat.not_le.mpr past)

/-- A step that fetches an instruction executes it (R145). -/
theorem step_of_fetch {s : State} {i : Instr} (running : s.run = .running) (h : fetch s = .instr i) :
    step s = exec i s := by
  simp only [step, running, h]

/-! #### What a completed PUSH or CALL leaves -/

/-- An instruction other than HLT that ends without a fatal error has made its writes (R146). -/
theorem exec_completed {i : Instr} {s t : State} (h : exec i s = .next t) (notHlt : i ≠ .hlt)
    (completed : t.run ≠ .faulted) : ∃ u, Writes i s u ∧ t = commit i s u := by
  rcases exec_next h with ⟨e, _, rfl⟩ | ⟨_, written⟩ | ⟨rfl, _⟩
  · exact absurd rfl completed
  · exact written
  · exact absurd rfl notHlt

/-- The byte a push stores is what a read of the push address gives (R75, R220). -/
theorem memRead_pushAddr {s t : State} {v : Byte} (hm : s.mem.wf = true) (h0 : 0 < s.sp.toNat)
    (h1 : s.sp.toNat ≤ 256) (stored : t.mem = s.mem.write (s.sp.toNat - 1) v) :
    memRead t (pushAddr s) = .ok v := by
  have e : pushAddr s = ((s.sp.toNat - 1 : Nat) : Int) := by simp only [pushAddr]; omega
  rw [memRead_ok (by omega), stored, e, Int.toNat_natCast, Memory.read_write_same _ _ _ hm]

/-- A completed PUSH stores the register below `sp` and goes on after its two bytes (R142, R221). -/
theorem push_completed {s t : State} {r : Byte} (hr : r.toNat < 8) (h : exec (.push r) s = .next t)
    (completed : t.run ≠ .faulted) :
    0 < s.sp.toNat ∧ s.sp.toNat ≤ 256 ∧ t.mem = s.mem.write (s.sp.toNat - 1) s.x[r.toNat] ∧
      t.pc = pcAfter s 2 ∧ t.run = s.run ∧ t.cfg = s.cfg := by
  obtain ⟨u, ⟨_, h0, h1, rfl⟩, rfl⟩ := exec_completed h (by simp) completed
  exact ⟨h0, h1, rfl, rfl, rfl, rfl⟩

/-- A completed CALL stores the return address below `sp` (R241). -/
theorem call_completed {s t : State} {r : Byte} (h : exec (.call r) s = .next t)
    (completed : t.run ≠ .faulted) :
    0 < s.sp.toNat ∧ s.sp.toNat ≤ 256 ∧
      t.mem = s.mem.write (s.sp.toNat - 1) (BitVec.ofNat 8 (s.pc.toNat + 2)) := by
  obtain ⟨u, ⟨_, h0, h1, _, rfl⟩, rfl⟩ := exec_completed h (by simp) completed
  exact ⟨h0, h1, rfl⟩

/-- A HLT word pushed onto the address the next fetch reads is at `pc` there (R85). -/
theorem pushed_hlt_wordAtPc {s t : State} {r : Byte} (hr : r.toNat < 8) (running : s.run = .running)
    (hm : s.mem.wf = true) (legal : s.cfg.opcodes.legal = true) (h : exec (.push r) s = .next t)
    (completed : t.run ≠ .faulted) (next : (s.pc.toNat : Int) + 2 = pushAddr s)
    (hv : s.x[r.toNat] = s.cfg.opcodes.hlt) : WordAtPc t .hlt := by
  obtain ⟨h0, h1, hmem, hpc, hrun, hcfg⟩ := push_completed hr h completed
  have nextAddr : s.pc.toNat + 2 = s.sp.toNat - 1 := by simp only [pushAddr] at next; omega
  have pcNat : t.pc.toNat = s.sp.toNat - 1 := by rw [hpc, pcAfter_toNat (by omega), nextAddr]
  exact {
    running := by rw [hrun, running]
    legal := by rw [hcfg, legal]
    inMemory := by omega
    word := by rw [pcNat, hmem, Memory.read_write_same _ _ _ hm, hv, hcfg]; rfl }

/-- Settles O53: a completed PUSH or CALL has stored its byte at the push address, and a HLT word stored
there, where the next fetch reads, is a word of the table. -/
theorem storedByteIsFetchedNext : Obligations.StoredByteIsFetchedNext := by
  refine ⟨fun s t r hr _ hm _ h completed => ?_, fun s t r _ hm _ h completed => ?_,
    fun s t r hr running hm _ legal h completed next hv => ?_⟩
  · obtain ⟨h0, h1, stored, -⟩ := push_completed hr h completed
    exact memRead_pushAddr hm h0 h1 stored
  · obtain ⟨h0, h1, stored⟩ := call_completed h completed
    exact memRead_pushAddr hm h0 h1 stored
  · have atPc := pushed_hlt_wordAtPc hr running hm legal h completed next hv
    exact step_of_fetch atPc.running (fetch_of_wordAtPc atPc rfl atPc.inMemory)

end Sys2Proof.Machine

/-! ### The encoding (30_encoding.md): the table, the decoder and the encoder, the assembly line -/

namespace Sys2Proof.Machine

/-! #### The decoder and the encoder -/

/-- The decoder where the lookup finds a row and its operand bytes are there (R107, R111). -/
theorem decode_of_lookup {c : Config} {w : Byte} {row : OpRow} {rest : List Byte}
    (found : lookup c w = some row) (enough : row.operands ≤ rest.length) :
    decode c (w :: rest) =
      .ok (row.op.build (rest.getD 0 0) (rest.getD 1 0), rest.drop row.operands) := by
  simp only [decode, found, if_neg (Nat.not_lt.mpr enough)]

/-- Settles O16: the lookup of the instruction's word finds its own row, which takes its own operand bytes. -/
theorem decodeInvertsEncode : Obligations.DecodeInvertsEncode := by
  intro c i rest legal hasRow
  have found : lookup c (c.opcodes.word i.op) = some (c.row i.op) := lookup_word legal hasRow
  have count : (c.row i.op).operands = i.operandBytes.length := (operandBytes_length i).symm
  have enough : (c.row i.op).operands ≤ (i.operandBytes ++ rest).length := by simp [count]
  have built : (c.row i.op).op.build ((i.operandBytes ++ rest).getD 0 0)
      ((i.operandBytes ++ rest).getD 1 0) = i := build_operandBytes i rest
  have left : (i.operandBytes ++ rest).drop (c.row i.op).operands = rest := by
    rw [count, List.drop_left]
  rw [encode, List.cons_append, decode_of_lookup found enough, built, left]

/-- The operand bytes of a built instruction are the first of the two given, as many as the row says. -/
theorem operandBytes_build (op : Op) (a b : Byte) :
    (op.build a b).operandBytes = [a, b].take op.operands := by
  cases op <;> rfl

/-- The decoder's two operand reads, cut to a count the bytes suffice for, are the bytes themselves. -/
theorem take_getD_pair : {n : Nat} → {bytes : List Byte} → n ≤ 2 → n ≤ bytes.length →
    [bytes.getD 0 0, bytes.getD 1 0].take n = bytes.take n
  | 0, _, _, _ => rfl
  | 1, _ :: _, _, _ => rfl
  | 2, _ :: _ :: _, _, _ => rfl

/-- Building a row from the bytes at hand uses exactly the bytes the row's count takes (R111). -/
theorem operandBytes_build_getD {op : Op} {bytes : List Byte} (enough : op.operands ≤ bytes.length) :
    (op.build (bytes.getD 0 0) (bytes.getD 1 0)).operandBytes = bytes.take op.operands := by
  rw [operandBytes_build, take_getD_pair (operands_le_two op) enough]

/-- Settles O17: the word decoded is the row's own, and the operand bytes are the bytes taken. -/
theorem encodeInvertsDecode : Obligations.EncodeInvertsDecode := by
  intro c bytes rest i h
  cases bytes with
  | nil => cases h
  | cons w bytes =>
    obtain ⟨row, found, enough, rfl, rfl⟩ := decode_cons_ok h
    obtain ⟨isRow, hasRow, word⟩ := lookup_some found
    have count : row.operands = row.op.operands := congrArg OpRow.operands isRow
    rw [count] at enough ⊢
    refine ⟨?_, by rwa [Instr.wf, op_build]⟩
    rw [encode, op_build, word, operandBytes_build_getD enough, List.cons_append, List.take_append_drop]

/-! #### The table -/

/-- A word is unrecognized when no row of the table has it (R107, R109). -/
theorem lookup_eq_none_iff {c : Config} {w : Byte} :
    lookup c w = none ↔ ∀ op : Op, c.hasRow op = true → c.opcodes.word op ≠ w := by
  refine ⟨fun missing op hasRow word => ?_, fun noRow => ?_⟩
  · have found := lookup_isSome hasRow
    rw [word, missing] at found
    cases found
  · cases found : lookup c w with
    | none => rfl
    | some row =>
      obtain ⟨-, hasRow, word⟩ := lookup_some found
      exact absurd word (noRow row.op hasRow)

/-- In a legal map the row found has the operand count and the sets-PC flag of the word's bits (R108, R149). -/
theorem lookup_metadata {c : Config} {w : Byte} {row : OpRow} (legal : c.opcodes.legal = true)
    (found : lookup c w = some row) :
    row.operands = wordCount w ∧ row.setsPc = wordSetsPc w := by
  obtain ⟨isRow, -, word⟩ := lookup_some found
  obtain ⟨count, setsPc⟩ := legal_word legal row.op
  rw [word] at count setsPc
  exact ⟨(congrArg OpRow.operands isRow).trans count.symm, (congrArg OpRow.setsPc isRow).trans setsPc.symm⟩

/-- Settles O12: by what the lookup finds, and the metadata of a legal map. -/
theorem lookupIsTheTable : Obligations.LookupIsTheTable := by
  intro c w legal
  refine ⟨lookup_eq_none_iff, ?_, fun row found => ?_⟩
  · rintro op hasRow rfl
    exact lookup_word legal hasRow
  · obtain ⟨isRow, hasRow, word⟩ := lookup_some found
    obtain ⟨count, setsPc⟩ := lookup_metadata legal found
    exact ⟨(congrArg OpRow.word isRow).trans word, hasRow, count, setsPc⟩

/-- An instruction is one byte longer than its row's operand count (R100). -/
theorem encode_length (c : Config) (i : Instr) : (encode c i).length = 1 + i.op.operands := by
  rw [encode, List.length_cons, operandBytes_length, Nat.add_comm]

/-- Settles O13: the row a legal map gives the word has the word's own count, which no row has above two. -/
theorem lengthFromOpcodeWord : Obligations.LengthFromOpcodeWord := by
  intro c w rest rest' i legal h
  obtain ⟨row, found, -, rfl, rfl⟩ := decode_cons_ok h
  obtain ⟨isRow, -, -⟩ := lookup_some found
  have count : row.operands = row.op.operands := congrArg OpRow.operands isRow
  obtain ⟨fromWord, -⟩ := lookup_metadata legal found
  rw [← fromWord, encode_length, op_build, count]
  exact ⟨operands_le_two row.op, rfl, rfl⟩

/-- The opcode words of R106 make a legal map (R108). -/
theorem defaultOpcodes_legal : defaultOpcodes.legal = true := by decide

/-- Settles O11: the rows by evaluation, and the agreement with the word's fields from the map's legality. -/
theorem opcodeTableRows : Obligations.OpcodeTableRows := by
  have setsPc_iff (op : Op) : op.setsPc = true ↔ op ∈ [Op.ret, .call, .jmp, .jeq, .jne] := by
    cases op <;> decide
  exact ⟨by decide, by decide, by decide, by decide, by decide,
    fun op => (legal_word defaultOpcodes_legal op).1, fun op => (legal_word defaultOpcodes_legal op).2,
    setsPc_iff, fun _ _ => legal_injective defaultOpcodes_legal⟩

/-- Settles O15: the decoder evaluated on each of the words. -/
theorem sampleWordsDecode : Obligations.SampleWordsDecode := by
  unfold Obligations.SampleWordsDecode
  refine ⟨?_, ?_, ?_, ?_, ?_, ?_, ?_, ?_, ?_, ?_, ?_⟩
  all_goals decide

/-! #### Cutting text -/

theorem splitOn_cons_of_ne {sep c : Char} {rest word : List Char} {words : List (List Char)}
    (hc : c ≠ sep) (h : splitOn sep rest = word :: words) :
    splitOn sep (c :: rest) = (c :: word) :: words := by
  simp only [splitOn, h, if_neg hc]

/-- Text without the separator is left whole. -/
theorem splitOn_of_not_mem {sep : Char} {text : List Char} (h : sep ∉ text) :
    splitOn sep text = [text] := by
  induction text with
  | nil => rfl
  | cons c rest ih =>
    obtain ⟨hc, hrest⟩ := List.ne_and_not_mem_of_not_mem_cons h
    exact splitOn_cons_of_ne (Ne.symm hc) (ih hrest)

theorem splitOn_ne_nil (sep : Char) (text : List Char) : splitOn sep text ≠ [] := by
  cases text with
  | nil => simp [splitOn]
  | cons c rest =>
    simp only [splitOn]
    split
    · simp
    · split <;> simp

/-- The text before the first separator is the first piece. -/
theorem splitOn_append {sep : Char} {before : List Char} (after : List Char) (h : sep ∉ before) :
    splitOn sep (before ++ sep :: after) = before :: splitOn sep after := by
  induction before with
  | nil =>
    obtain ⟨word, words, e⟩ := List.exists_cons_of_ne_nil (splitOn_ne_nil sep after)
    simp only [List.nil_append, splitOn, e, if_pos]
  | cons c rest ih =>
    obtain ⟨hc, hrest⟩ := List.ne_and_not_mem_of_not_mem_cons h
    exact splitOn_cons_of_ne (Ne.symm hc) (ih hrest)

/-! #### Digits -/

theorem digitChar_toNat {d : Nat} (h : d < 10) : (digitChar d).toNat = 48 + d := by
  interval_cases d <;> rfl

/-- A digit is read back in any base it belongs to. -/
theorem digitValue_digitChar {base d : Nat} (hd : d < base) (h10 : d < 10) :
    digitValue base (digitChar d) = some d := by
  simp [digitValue, digitChar_toNat h10, hd]

/-- A character that is not a digit differs from every digit. -/
theorem digitChar_ne {d : Nat} {c : Char} (hd : d < 10) (hc : c.toNat < 48 ∨ 58 ≤ c.toNat) :
    digitChar d ≠ c := by
  rintro rfl
  rw [digitChar_toNat hd] at hc
  omega

theorem numeralFrom_digit {d : Nat} (hd : d < 10) (acc : Nat) (rest : List Char) :
    numeralFrom 10 acc (digitChar d :: rest) = numeralFrom 10 (10 * acc + d) rest := by
  simp only [numeralFrom, digitValue_digitChar hd hd]

/-- A decimal spelling: one, two or three digits of which the byte is the value. -/
theorem spellByte_cases (v : Byte) :
    (∃ d < 10, v.toNat = d ∧ spellByte v = [digitChar d]) ∨
    (∃ t < 10, ∃ d < 10, v.toNat = 10 * t + d ∧ spellByte v = [digitChar t, digitChar d]) ∨
    (∃ h < 10, ∃ t < 10, ∃ d < 10, v.toNat = 10 * (10 * h + t) + d ∧
      spellByte v = [digitChar h, digitChar t, digitChar d]) := by
  have := v.isLt
  simp only [spellByte]
  split
  · exact .inl ⟨v.toNat, by omega, rfl, rfl⟩
  · split
    · exact .inr (.inl ⟨v.toNat / 10, by omega, v.toNat % 10, by omega, by omega, rfl⟩)
    · exact .inr (.inr ⟨v.toNat / 100, by omega, v.toNat / 10 % 10, by omega, v.toNat % 10, by omega,
        by omega, rfl⟩)

/-- A character that is not a digit is in no byte's spelling. -/
theorem not_mem_spellByte {c : Char} (hc : c.toNat < 48 ∨ 58 ≤ c.toNat) (v : Byte) : c ∉ spellByte v := by
  rcases spellByte_cases v with
    ⟨d, hd, -, e⟩ | ⟨t, ht, d, hd, -, e⟩ | ⟨h, hh, t, ht, d, hd, -, e⟩ <;> rw [e]
  · simp [(digitChar_ne hd hc).symm]
  · simp [(digitChar_ne hd hc).symm, (digitChar_ne ht hc).symm]
  · simp [(digitChar_ne hd hc).symm, (digitChar_ne ht hc).symm, (digitChar_ne hh hc).symm]

/-- The value of a byte's decimal spelling is the byte. -/
theorem numeralFrom_spellByte (v : Byte) : numeralFrom 10 0 (spellByte v) = some v.toNat := by
  rcases spellByte_cases v with
    ⟨d, hd, value, e⟩ | ⟨t, ht, d, hd, value, e⟩ | ⟨h, hh, t, ht, d, hd, value, e⟩ <;> rw [e, value]
  · rw [numeralFrom_digit hd, numeralFrom, Nat.mul_zero, Nat.zero_add]
  · rw [numeralFrom_digit ht, numeralFrom_digit hd, numeralFrom, Nat.mul_zero, Nat.zero_add]
  · rw [numeralFrom_digit hh, numeralFrom_digit ht, numeralFrom_digit hd, numeralFrom, Nat.mul_zero,
      Nat.zero_add]

theorem spellByte_ne_nil (v : Byte) : spellByte v ≠ [] := by
  rcases spellByte_cases v with ⟨d, -, -, e⟩ | ⟨t, -, d, -, -, e⟩ | ⟨h, -, t, -, d, -, -, e⟩ <;>
    simp [e]

/-- Text of the value 0..255 of a numeral reads as that byte. -/
theorem numeralByte_of_value {base : Nat} {text : List Char} {v : Byte} (nonempty : text ≠ [])
    (value : numeralFrom base 0 text = some v.toNat) : numeralByte base text = some v := by
  have small : v.toNat ≤ 255 := Nat.le_of_lt_succ v.isLt
  cases text with
  | nil => exact absurd rfl nonempty
  | cons c rest => simp [numeralByte, value, small]

/-- Text without the letter `b` is no binary literal: it is read in decimal (R120). -/
theorem readImmediate_of_no_b {text : List Char} (h : 'b' ∉ text) :
    readImmediate text = numeralByte 10 text := by
  unfold readImmediate
  split
  · simp at h
  · rfl

/-! #### The operands and the line -/

/-- The immediate's decimal spelling is read back (R120). -/
theorem readImmediate_spellByte (v : Byte) : readImmediate (spellByte v) = some v := by
  rw [readImmediate_of_no_b (not_mem_spellByte (by decide) v)]
  exact numeralByte_of_value (spellByte_ne_nil v) (numeralFrom_spellByte v)

/-- A register's spelling is read back (R120). -/
theorem readRegister_spellReg {r : Byte} (hr : r.toNat ≤ 7) : readRegister (spellReg r) = some r := by
  have text : spellReg r = ['R', digitChar r.toNat] := by
    simp [spellReg, spellByte, show r.toNat < 10 by omega]
  have digit : digitValue 8 (digitChar r.toNat) = some r.toNat :=
    digitValue_digitChar (by omega) (by omega)
  simp [text, readRegister, digit]

/-- A register's spelling holds neither a blank nor a comma. -/
theorem not_mem_spellReg {c : Char} (hc : c = ' ' ∨ c = ',') (r : Byte) : c ∉ spellReg r := by
  rcases hc with rfl | rfl <;> simp [spellReg, not_mem_spellByte]

/-- A mnemonic names its own row (R106). -/
theorem opNamed_opChars (op : Op) : opNamed (opChars op) = some op := by
  cases op <;> decide

theorem space_not_mem_opChars (op : Op) : ' ' ∉ opChars op := by
  cases op <;> decide

/-- A mnemonic alone is the line of an instruction without operands. -/
theorem assemble_mnemonic {op : Op} (h : op.format = .f0) : assemble (opChars op) = some (op.build 0 0) := by
  simp [assemble, splitOn_of_not_mem (space_not_mem_opChars op), opNamed_opChars, h]

/-- A mnemonic, a blank and operand texts of its format are the line of the instruction with the operand
bytes these read as. -/
theorem assemble_operands {op : Op} {text : List Char} {a b : Byte} (noSpace : ' ' ∉ text)
    (h : readOperands op.format (splitOn ',' text) = some (a, b)) :
    assemble (opChars op ++ ' ' :: text) = some (op.build a b) := by
  have cut : splitOn ' ' (opChars op ++ ' ' :: text) = [opChars op, text] := by
    rw [splitOn_append text (space_not_mem_opChars op), splitOn_of_not_mem noSpace]
  simp [assemble, cut, opNamed_opChars, h]

theorem assemble_f1r {op : Op} {r : Byte} (hf : op.format = .f1r) (hr : r.toNat ≤ 7) :
    assemble (opChars op ++ ' ' :: spellReg r) = some (op.build r 0) := by
  refine assemble_operands (not_mem_spellReg (.inl rfl) r) ?_
  simp [hf, splitOn_of_not_mem (not_mem_spellReg (.inr rfl) r), readOperands, readRegister_spellReg hr]

theorem splitOn_comma_spellReg (r : Byte) {text : List Char} (noComma : ',' ∉ text) :
    splitOn ',' (spellReg r ++ ',' :: text) = [spellReg r, text] := by
  rw [splitOn_append text (not_mem_spellReg (.inr rfl) r), splitOn_of_not_mem noComma]

theorem assemble_f2ri {op : Op} {r : Byte} (hf : op.format = .f2ri) (hr : r.toNat ≤ 7) (imm8 : Byte) :
    assemble (opChars op ++ ' ' :: (spellReg r ++ ',' :: spellByte imm8)) = some (op.build r imm8) := by
  have noSpace : ' ' ∉ spellByte imm8 := not_mem_spellByte (by decide) imm8
  have noComma : ',' ∉ spellByte imm8 := not_mem_spellByte (by decide) imm8
  refine assemble_operands (by simp [not_mem_spellReg, noSpace]) ?_
  simp [hf, splitOn_comma_spellReg r noComma, readOperands, readRegister_spellReg hr, readImmediate_spellByte]

theorem assemble_f2rr {op : Op} {ra rb : Byte} (hf : op.format = .f2rr) (ha : ra.toNat ≤ 7)
    (hb : rb.toNat ≤ 7) :
    assemble (opChars op ++ ' ' :: (spellReg ra ++ ',' :: spellReg rb)) = some (op.build ra rb) := by
  refine assemble_operands (by simp [not_mem_spellReg]) ?_
  simp [hf, splitOn_comma_spellReg ra (not_mem_spellReg (.inr rfl) rb), readOperands,
    readRegister_spellReg ha, readRegister_spellReg hb]

/-- Settles O18: the line is cut at its blank and its comma, and each piece is read back, format by format. -/
theorem assembleInvertsSpell : Obligations.AssembleInvertsSpell := by
  intro i spellable
  cases i with
  | hlt | ret =>
    rw [spell, spellOperands, List.append_nil]
    exact assemble_mnemonic rfl
  | push r | pop r | prn r | call r | jmp r | jeq r | jne r =>
    exact assemble_f1r rfl (of_decide_eq_true spellable)
  | ldi r imm8 => exact assemble_f2ri rfl (of_decide_eq_true spellable) imm8
  | add ra rb | mul ra rb | cmp ra rb | sub ra rb | div ra rb =>
    obtain ⟨ha, hb⟩ : ra.toNat ≤ 7 ∧ rb.toNat ≤ 7 := by simpa [Instr.spellable] using spellable
    exact assemble_f2rr rfl ha hb

end Sys2Proof.Machine

/-! ### The dispatcher (40_dispatch.md): what a step grant does, and the runs it makes -/

namespace Sys2Proof.Machine

open Sys2Proof.Stmt

/-! #### Step grants outside Running -/

/-- Outside Running a grant answers the same state (R140). -/
theorem step_of_not_running {s : State} (h : s.run ≠ .running) : step s = .next s := by
  rcases step_cases s with ⟨_, same⟩ | ⟨running, _⟩
  · exact same
  · exact absurd running h

/-- A state that one grant leaves as it is stays so for any number of grants. -/
theorem stepsFrom_of_step_same {s : State} (h : step s = .next s) : (k : Nat) → stepsFrom k s = .next s
  | 0 => rfl
  | k + 1 => by
    simp only [stepsFrom_succ, h]
    exact stepsFrom_of_step_same h k

/-- `start` has no effect outside Idle (R303). -/
theorem hostStart_of_not_idle {s : State} (h : s.run ≠ .idle) : hostStart s = s := by
  cases hrun : s.run with
  | idle => exact absurd hrun h
  | running | halted | faulted => simp only [hostStart, hrun]

/-- A load write has no effect outside Idle (R306). -/
theorem hostLoad_of_not_idle {s : State} (h : s.run ≠ .idle) (addr data : Byte) :
    hostLoad addr data s = s := by
  cases hrun : s.run with
  | idle => exact absurd hrun h
  | running | halted | faulted => simp only [hostLoad, hrun]

/-- An ended core is in neither of the run states that start, load or step act on. -/
theorem State.Ended.run_ne {s : State} (h : s.Ended) : s.run ≠ .idle ∧ s.run ≠ .running := by
  rcases h with hrun | hrun <;> rw [hrun] <;> decide

/-- Settles O5: a grant acts only in Running, a start or a load only in Idle, and an ended core is in neither. -/
theorem stoppedCoreIsInert : Obligations.StoppedCoreIsInert := by
  intro s
  refine ⟨step_of_not_running, fun ended => ?_⟩
  obtain ⟨notIdle, notRunning⟩ := ended.run_ne
  exact ⟨hostStart_of_not_idle notIdle, hostLoad_of_not_idle notIdle,
    stepsFrom_of_step_same (step_of_not_running notRunning)⟩

/-! #### Steps that stop in the fetch unit or the decoder -/

/-- A step whose fetch fails is a fatal error in that phase (R141, R144). -/
theorem step_of_failed {s : State} {e : CoreError} {phase : StopPhase} {w : Byte} {ops : List Byte}
    (running : s.run = .running) (h : fetch s = .failed e phase w ops) :
    step s = .next (takeFault s e phase w ops) := by
  simp only [step, running, h]

/-- A step that fetches a word without a row stops in order (R143). -/
theorem step_of_unrecognized {s : State} {w : Byte} (running : s.run = .running)
    (h : fetch s = .unrecognized w) : step s = .next (haltUnrecognized s w) := by
  simp only [step, running, h]

/-- Settles O19: the fetch unit reads no opcode there, and the fault's record is the one claimed. -/
theorem opcodeFetchOutOfRange : Obligations.OpcodeFetchOutOfRange := by
  intro s running above
  rcases fetch_cases s with ⟨_, failed⟩ | ⟨inMemory, _⟩ | ⟨_, inMemory, _⟩
  · exact step_of_failed running failed
  · exact absurd above (Nat.not_lt.mpr inMemory)
  · exact absurd above (Nat.not_lt.mpr inMemory)

/-- The fetch of a word without a row (R143). -/
theorem fetch_of_lookup_none {s : State} (inMemory : s.pc.toNat ≤ 255)
    (missing : lookup s.cfg (s.mem.read s.pc.toNat) = none) :
    fetch s = .unrecognized (s.mem.read s.pc.toNat) := by
  rcases fetch_cases s with ⟨above, _⟩ | ⟨_, _, unrecognized⟩ | ⟨row, _, found, _⟩
  · exact absurd above (Nat.not_lt.mpr inMemory)
  · exact unrecognized
  · rw [missing] at found
    cases found

/-- A word is recognized when a row of the table has it (R107). -/
theorem lookup_isSome_iff {c : Config} {w : Byte} :
    (lookup c w).isSome = true ↔ ∃ op : Op, c.hasRow op = true ∧ c.opcodes.word op = w := by
  simp [← Option.ne_none_iff_isSome, lookup_eq_none_iff]

/-- The rows of a legal table have distinct words (R108), here as numbers. -/
theorem opcodeTable_words_nodup {c : Config} (legal : c.opcodes.legal = true) :
    ((opcodeTable c).map (fun row => row.word.toNat)).Nodup := by
  have rows : (Op.all.filter c.hasRow).Nodup := List.Nodup.filter _ (by decide)
  rw [opcodeTable, List.map_map]
  exact rows.map fun _ _ same => legal_injective legal (BitVec.eq_of_toNat_eq same)

/-- The recognized bytes are the words of the table, each once. -/
theorem recognized_perm_words {c : Config} (legal : c.opcodes.legal = true) :
    ((List.range 256).filter (fun n => (lookup c (BitVec.ofNat 8 n)).isSome)).Perm
      ((opcodeTable c).map (fun row => row.word.toNat)) := by
  rw [List.perm_ext_iff_of_nodup (List.nodup_range.filter _) (opcodeTable_words_nodup legal)]
  intro n
  simp only [List.mem_filter, List.mem_range, lookup_isSome_iff, opcodeTable, List.map_map, List.mem_map]
  constructor
  · rintro ⟨small, op, hasRow, word⟩
    refine ⟨op, ⟨op.mem_all, hasRow⟩, ?_⟩
    simp only [Function.comp_apply, Config.row, word, BitVec.toNat_ofNat, Nat.mod_eq_of_lt small]
  · rintro ⟨op, ⟨_, hasRow⟩, rfl⟩
    exact ⟨(c.opcodes.word op).isLt, op, hasRow, by simp [Config.row]⟩

/-- Every byte is unrecognized but one for each row of the table (R109). -/
theorem count_unrecognized {c : Config} (legal : c.opcodes.legal = true) :
    (List.range 256).countP (fun n => (lookup c (BitVec.ofNat 8 n)).isNone) =
      256 - (opcodeTable c).length := by
  have recognized := (recognized_perm_words legal).length_eq
  have all := List.length_eq_countP_add_countP
    (fun n => (lookup c (BitVec.ofNat 8 n)).isSome) (l := List.range 256)
  have others : (fun n => decide ¬ (lookup c (BitVec.ofNat 8 n)).isSome = true) =
      fun n => (lookup c (BitVec.ofNat 8 n)).isNone := by
    funext n
    cases lookup c (BitVec.ofNat 8 n) <;> rfl
  rw [← List.countP_eq_length_filter, List.length_map] at recognized
  rw [List.length_range, recognized, others] at all
  omega

/-- A row found has its instruction's operand count. -/
theorem lookup_operands {c : Config} {w : Byte} {row : OpRow} (found : lookup c w = some row) :
    row.operands = row.op.operands :=
  congrArg OpRow.operands (lookup_some found).1

/-- No legal map gives a row a word with top bits 11: no row has three operands (R109). -/
theorem lookup_of_wordCount_three {c : Config} {w : Byte} (legal : c.opcodes.legal = true)
    (three : wordCount w = 3) : lookup c w = none := by
  cases found : lookup c w with
  | none => rfl
  | some row =>
    obtain ⟨count, -⟩ := lookup_metadata legal found
    have rowCount := lookup_operands found
    have atMostTwo := operands_le_two row.op
    omega

/-- Settles O14: the counts from the lengths of the two tables, the stop from the fetch of a word without a row. -/
theorem unrecognizedWordsStop : Obligations.UnrecognizedWordsStop := by
  refine ⟨count_unrecognized defaultOpcodes_legal, count_unrecognized defaultOpcodes_legal,
    fun c w => lookup_of_wordCount_three, by decide, by decide, rfl, rfl, fun s running inMemory missing => ?_⟩
  exact step_of_unrecognized running (fetch_of_lookup_none inMemory missing)

/-! #### The operand fetch -/

/-- The fetch of a word whose row is found: the instruction where the operands lie inside memory, else an
`OutOfRange` (R144). -/
theorem fetch_of_lookup_some {s : State} {row : OpRow} (inMemory : s.pc.toNat ≤ 255)
    (found : lookup s.cfg (s.mem.read s.pc.toNat) = some row) :
    (s.pc.toNat + row.operands ≤ 255 ∧
      fetch s = .instr (row.op.build (s.mem.read (s.pc.toNat + 1)) (s.mem.read (s.pc.toNat + 2)))) ∨
    (255 < s.pc.toNat + row.operands ∧
      fetch s = .failed (.outOfRange 256) .operandFetch (s.mem.read s.pc.toNat)
        ((List.range' (s.pc.toNat + 1) (255 - s.pc.toNat)).map s.mem.read)) := by
  rcases fetch_cases s with ⟨above, _⟩ | ⟨_, missing, _⟩ | ⟨row', _, found', ends⟩
  · exact absurd above (Nat.not_lt.mpr inMemory)
  · rw [found] at missing
    cases missing
  · obtain rfl : row = row' := Option.some.inj (found.symm.trans found')
    exact ends

/-- The fault of an operand fetch that runs past the end of memory: the operands read are the bytes after
`pc`, of which there is at most the one at 255 (R144). -/
theorem takeFault_operandFetch {s : State} (w : Byte) (h : s.pc.toNat = 254 ∨ s.pc.toNat = 255) :
    takeFault s (.outOfRange 256) .operandFetch w
        ((List.range' (s.pc.toNat + 1) (255 - s.pc.toNat)).map s.mem.read) =
      faultOf s .outOfRange .operandFetch w (255 - s.pc.toNat)
        (if s.pc.toNat = 255 then 0 else s.mem.read 255) 0 256 := by
  rcases h with h | h <;> rw [h] <;> rfl

/-- Settles O20: a legal map's row has the word's own operand count, and the fetch unit's two ends are the
claim's two cases. -/
theorem operandFetchReadsRowCount : Obligations.OperandFetchReadsRowCount := by
  intro s row running inMemory legal found
  obtain ⟨count, -⟩ := lookup_metadata legal found
  have rowCount := lookup_operands found
  have atMostTwo := operands_le_two row.op
  rw [← count]
  rcases fetch_of_lookup_some inMemory found with ⟨inside, fetched⟩ | ⟨past, failed⟩
  · exact ⟨fun _ => step_of_fetch running fetched, fun past => absurd inside (Nat.not_le.mpr past)⟩
  · refine ⟨fun inside => absurd inside (Nat.not_le.mpr past), fun _ => ?_⟩
    rw [step_of_failed running failed, takeFault_operandFetch _ (by omega)]

/-! #### The instruction whose bytes stand at `pc` -/

/-- An operand byte the row does not have makes no difference to the instruction built (R103). -/
theorem build_congr {op : Op} {a a' b b' : Byte} (first : 1 ≤ op.operands → a = a')
    (second : 2 ≤ op.operands → b = b') : op.build a b = op.build a' b' := by
  cases op with
  | hlt | ret => rfl
  | push | pop | prn | call | jmp | jeq | jne => simp only [Op.build, first (by decide)]
  | ldi | add | mul | cmp | sub | div => simp only [Op.build, first (by decide), second (by decide)]

/-- A decoder at an address inside memory sees the byte there, then those of the next two that exist. -/
theorem bytesFrom_of_le {m : Memory} {a : Nat} (h : a ≤ 255) :
    bytesFrom m a = m.read a :: (List.range' (a + 1) (min 2 (255 - a))).map m.read := by
  have range : List.range 3 = [0, 1, 2] := rfl
  obtain below | rfl | rfl : a ≤ 253 ∨ a = 254 ∨ a = 255 := by omega
  · have two : min 2 (255 - a) = 2 := by omega
    have next : a + 1 ≤ 255 := by omega
    have last : a + 2 ≤ 255 := by omega
    simp only [bytesFrom, range, two, List.range', List.filter, h, next, last, Nat.add_zero, decide_true,
      List.map_cons, List.map_nil, Nat.add_assoc]
  · rfl
  · rfl

/-- A decoder past the end of memory sees no bytes. -/
theorem bytesFrom_of_gt {m : Memory} {a : Nat} (h : 255 < a) : bytesFrom m a = [] := by
  simp only [bytesFrom, List.map_eq_nil_iff, List.filter_eq_nil_iff, decide_eq_true_eq]
  omega

/-- Each of the bytes read in order from `a` on. -/
theorem getD_map_read (m : Memory) (a : Nat) {n k : Nat} (h : k < n) :
    ((List.range' a n).map m.read).getD k 0 = m.read (a + k) := by
  have inList : k < ((List.range' a n).map m.read).length := by simpa using h
  rw [List.getD_eq_getElem _ _ inList, List.getElem_map, List.getElem_range', Nat.one_mul]

/-- What the decoder reads at `pc` is what the fetch unit gives (R107, R144). -/
theorem fetch_of_decode {s : State} {i : Instr} {rest : List Byte}
    (h : decode s.cfg (bytesFrom s.mem s.pc.toNat) = .ok (i, rest)) : fetch s = .instr i := by
  rcases Nat.lt_or_ge 255 s.pc.toNat with above | inMemory
  · rw [bytesFrom_of_gt above] at h
    cases h
  rw [bytesFrom_of_le inMemory] at h
  obtain ⟨row, found, enough, rfl, -⟩ := decode_cons_ok h
  have rowCount := lookup_operands found
  rw [List.length_map, List.length_range'] at enough
  rcases fetch_of_lookup_some inMemory found with ⟨_, fetched⟩ | ⟨past, _⟩
  · have operand {k : Nat} (hk : k + 1 ≤ row.op.operands) := getD_map_read s.mem (s.pc.toNat + 1)
      (show k < min 2 (255 - s.pc.toNat) by omega)
    rw [fetched, build_congr (fun one => operand one) (fun two => operand two)]
  · omega

/-- The encoding of an instruction stands at `pc` within memory. -/
def EncodedAtPc (s : State) (i : Instr) : Prop :=
  ∀ (k : Nat) (_ : k < (encode s.cfg i).length),
    s.pc.toNat + k ≤ 255 ∧ s.mem.read (s.pc.toNat + k) = (encode s.cfg i)[k]

/-- Where the encoding of a well-formed instruction stands at `pc`, the fetch unit gives it (R102, R144). -/
theorem fetch_of_encodedAtPc {s : State} {i : Instr} (running : s.run = .running)
    (legal : s.cfg.opcodes.legal = true) (hasRow : i.wf s.cfg = true) (h : EncodedAtPc s i) :
    fetch s = .instr i := by
  have len : (encode s.cfg i).length = 1 + i.op.operands := encode_length s.cfg i
  obtain ⟨inMemory, word⟩ := h 0 (by omega)
  obtain ⟨inside, -⟩ := h i.op.operands (by omega)
  have atPc : WordAtPc s i.op := ⟨running, legal, inMemory, word⟩
  have operand (k : Nat) (hk : k < i.op.operands) :
      s.mem.read (s.pc.toNat + (k + 1)) = (i.operandBytes ++ []).getD k 0 := by
    rw [(h (k + 1) (by omega)).2, List.append_nil,
      List.getD_eq_getElem _ _ (show k < i.operandBytes.length by simpa using hk)]
    rfl
  rw [fetch_of_wordAtPc atPc hasRow inside, build_congr (operand 0) (operand 1), build_operandBytes i []]

/-- Settles O21: in both cases the fetch unit gives the instruction, and the step executes it. -/
theorem stepRunsDecodedInstruction : Obligations.StepRunsDecodedInstruction :=
  ⟨fun _ _ _ running decoded => step_of_fetch running (fetch_of_decode decoded),
   fun _ _ running legal hasRow encoded =>
    step_of_fetch running (fetch_of_encodedAtPc running legal hasRow encoded)⟩

/-! #### The PC after a completed step -/

/-- A completed instruction that does not set the PC leaves `pc` after its own bytes (R142). -/
theorem exec_pc_of_not_setsPc {i : Instr} {s t : State} (h : exec i s = .next t)
    (completed : t.run ≠ .faulted) (notSet : i.op.setsPc = false) :
    t.pc = pcAfter s (i.op.operands + 1) := by
  rcases exec_next h with ⟨e, _, rfl⟩ | ⟨_, u, _, rfl⟩ | ⟨rfl, rfl⟩
  · exact absurd rfl completed
  · rw [commit_advances notSet, State.withPc_pc]
  · rfl

/-- Settles O23: a fetched instruction lies inside memory, so the address after it is exact. -/
theorem pcAdvancesByLength : Obligations.PcAdvancesByLength := by
  intro s t i running fetched h completed notSet
  rw [step_of_fetch running fetched] at h
  obtain ⟨inside, -, -, -⟩ := fetch_instr fetched
  rw [exec_pc_of_not_setsPc h completed notSet, pcAfter_toNat (by omega), Nat.add_assoc]

/-! #### A JMP to its own address -/

/-- A JMP to the address it stands at leaves the state as it is (R247). -/
theorem exec_jmp_to_pc {s : State} {r : Byte} (hr : r.toNat < 8)
    (target : s.x[r.toNat].toNat = s.pc.toNat) : exec (.jmp r) s = .next s := by
  have samePc : zext9 s.x[r.toNat] = s.pc := BitVec.eq_of_toNat_eq (by rw [zext9_toNat, target])
  change finish (.jmp r) s (jumpTo r s) = .next s
  rw [jumpTo_of_lt hr, finish_ok, commit_setsPc rfl, samePc]
  rfl

/-- Settles O54: the step executes the JMP, which leaves the state as it is, so every grant does. -/
theorem jmpToItselfNeverStops : Obligations.JmpToItselfNeverStops := by
  rintro s r hr atPc inside rfl target
  have fetched : fetch s = .instr (.jmp (s.mem.read (s.pc.toNat + 1))) :=
    fetch_of_wordAtPc atPc rfl inside
  exact stepsFrom_of_step_same ((step_of_fetch atPc.running fetched).trans (exec_jmp_to_pc hr target))

/-! #### Runs from boot -/

/-- Every instruction answers a next state. -/
theorem exec_answers_next (i : Instr) (s : State) : ∃ t, exec i s = .next t := by
  rcases exec_cases i s with ⟨_, _, h⟩ | ⟨_, _, _, h⟩ | ⟨_, h⟩
  · exact ⟨_, h⟩
  · exact ⟨_, h⟩
  · exact ⟨_, h⟩

/-- Every grant answers a next state. -/
theorem step_answers_next (s : State) : ∃ t, step s = .next t := by
  rcases step_cases s with ⟨_, h⟩ | ⟨_, ⟨_, _, _, _, _, h⟩ | ⟨_, _, h⟩ | ⟨i, _, h⟩⟩
  · exact ⟨_, h⟩
  · exact ⟨_, h⟩
  · exact ⟨_, h⟩
  · rw [h]
    exact exec_answers_next i s

/-- The invariant holds after reset on a legal configuration (R300). -/
theorem inv_resetWith {c : Config} (legal : c.wf = true) : (State.resetWith c).Inv := by
  have spReset : c.spReset.toNat ≤ 256 := of_decide_eq_true (Bool.and_eq_true_iff.mp legal).1
  exact {
    mem_wf := rfl
    sp_le := spReset
    pc_le := Nat.zero_le 256
    fl_legal := .inl rfl
    stop_agrees := rfl
    cfg_wf := legal }

/-- A load write keeps the invariant (R306): it changes a byte of memory at most. -/
theorem hostLoad_keeps_inv (addr data : Byte) {s : State} (h : s.Inv) : (hostLoad addr data s).Inv := by
  by_cases idle : s.run = .idle
  · have written : hostLoad addr data s = s.withMem (s.mem.write addr.toNat data) := by
      simp only [hostLoad, idle, State.withMem]
    rw [written]
    exact { h with mem_wf := Memory.wf_write h.mem_wf addr.isLt data }
  · rwa [hostLoad_of_not_idle idle]

/-- A start keeps the invariant (R303): the stop record is as clear in Running as in Idle. -/
theorem hostStart_keeps_inv {s : State} (h : s.Inv) : (hostStart s).Inv := by
  by_cases idle : s.run = .idle
  · have started : hostStart s = { s with run := .running } := by simp only [hostStart, idle]
    have cleared : s.stop = StopRecord.cleared := by simpa only [StopAgrees, idle] using h.stop_agrees
    rw [started]
    exact { h with stop_agrees := cleared }
  · rwa [hostStart_of_not_idle idle]

/-- Loading an image keeps the invariant, byte by byte. -/
theorem loadFrom_keeps_inv : (image : List Byte) → (addr : Nat) → {s : State} → s.Inv →
    (loadFrom addr image s).Inv
  | [], _, _, h => h
  | b :: rest, addr, _, h => loadFrom_keeps_inv rest (addr + 1) (hostLoad_keeps_inv _ b h)

/-- A booted core has the invariant (R309). -/
theorem inv_boot {c : Config} (legal : c.wf = true) (image : List Byte) :
    (boot image (State.resetWith c)).Inv :=
  hostStart_keeps_inv (loadFrom_keeps_inv image 0 (inv_resetWith legal))

/-- A run from a state with the invariant answers a next state with the invariant, however many grants. -/
theorem stepsFrom_keeps_inv : (k : Nat) → {s : State} → s.Inv → ∃ t, stepsFrom k s = .next t ∧ t.Inv
  | 0, s, h => ⟨s, rfl, h⟩
  | k + 1, s, h => by
    obtain ⟨u, answered⟩ := step_answers_next s
    simp only [stepsFrom_succ, answered]
    exact stepsFrom_keeps_inv k (stepKeepsInvariant s u h answered)

/-- Settles O59: boot establishes the invariant, every step answers a next state and keeps it. -/
theorem everyRunKeepsInvariant : Obligations.EveryRunKeepsInvariant :=
  fun _ image k legal _ => stepsFrom_keeps_inv k (inv_boot legal image)

/-! #### The placed table word -/

/-- Bytes stored from a higher address on leave the addresses below as they were. -/
theorem Memory.read_writeAll_below {a : Nat} : (bytes : List Byte) → {m : Memory} → {addr : Nat} →
    a < addr → (m.writeAll addr bytes).read a = m.read a
  | [], _, _, _ => rfl
  | b :: rest, m, addr, h => by
    rw [Memory.writeAll, Memory.read_writeAll_below rest (by omega)]
    split
    · exact Memory.read_write_other (by omega) b m
    · rfl

/-- Each byte stored inside memory is read back at its own address. -/
theorem Memory.read_writeAll : {bytes : List Byte} → {m : Memory} → {addr k : Nat} → m.wf = true →
    (hk : k < bytes.length) → addr + k ≤ 255 → (m.writeAll addr bytes).read (addr + k) = bytes[k]
  | b :: rest, m, addr, 0, hm, _, inside => by
    rw [Memory.writeAll, if_pos (by omega), Memory.read_writeAll_below rest (by omega)]
    exact Memory.read_write_same addr b m hm
  | b :: rest, m, addr, k + 1, hm, hk, inside => by
    have hk' : k < rest.length := Nat.lt_of_succ_lt_succ hk
    have kept : (m.write addr b).wf = true := Memory.wf_write hm (by omega) b
    have later := Memory.read_writeAll kept hk' (addr := addr + 1) (by omega)
    rw [Memory.writeAll, if_pos (by omega), ← Nat.add_assoc, Nat.add_right_comm, later]
    rfl

/-- Where bytes are placed, the instruction their first byte names fits before the end of memory. -/
theorem placeAddr_fits (s : State) (bytes : List Byte) (short : wordCount (bytes.headD 0) ≤ 2) :
    placeAddr s bytes + wordCount (bytes.headD 0) ≤ 255 := by
  unfold placeAddr
  split <;> omega

/-- Placing sets `pc` to where the bytes are. -/
theorem placeWord_pc_toNat (s : State) (bytes : List Byte) (short : wordCount (bytes.headD 0) ≤ 2) :
    (placeWord s bytes).pc.toNat = placeAddr s bytes := by
  have fits := placeAddr_fits s bytes short
  simp only [placeWord, BitVec.toNat_ofNat]
  omega

/-- Placing a word of the default map exposes its row (R112, log entry 4). -/
theorem hasRow_placeWord (s : State) {op : Op} {bytes : List Byte}
    (word : bytes.headD 0 = defaultOpcodes.word op) : (placeWord s bytes).cfg.hasRow op = true := by
  cases op with
  | sub | div =>
    have exposed : needsSubDiv bytes = true := by
      rw [needsSubDiv, word]
      decide
    exact Bool.or_eq_true_iff.mpr (.inr exposed)
  | _ => rfl

/-- The encoding of an instruction, placed with whatever follows it, stands at `pc`. -/
theorem encodedAtPc_placeWord {s : State} {i : Instr} {bytes rest : List Byte} (hm : s.mem.wf = true)
    (encoded : bytes = encode Config.fullTable i ++ rest) : EncodedAtPc (placeWord s bytes) i := by
  intro k hk
  have count : wordCount (bytes.headD 0) = i.op.operands := by
    rw [encoded]
    exact (legal_word defaultOpcodes_legal i.op).1
  have short := operands_le_two i.op
  have fits := placeAddr_fits s bytes (by omega)
  have len := encode_length (placeWord s bytes).cfg i
  have inside : placeAddr s bytes + k ≤ 255 := by omega
  have inBytes : k < bytes.length := by
    rw [encoded, List.length_append]
    exact Nat.lt_add_right _ hk
  rw [placeWord_pc_toNat s bytes (by omega)]
  refine ⟨inside, (Memory.read_writeAll hm inBytes inside).trans ?_⟩
  simp only [encoded]
  exact List.getElem_append_left hk

/-- A table word that decodes is the encoding of its instruction, with bytes after it. -/
theorem tableBytes_of_decodeTableWord {nbits w : Nat} {i : Instr} (h : decodeTableWord nbits w = some i) :
    ∃ rest, tableBytes nbits w = encode Config.fullTable i ++ rest := by
  unfold decodeTableWord at h
  split at h
  · cases h
    exact ⟨_, (encodeInvertsDecode _ _ _ _ ‹_›).1.symm⟩
  · cases h

/-- Settles O60: the placed word is an encoding that stands at `pc`, in a row the placing exposes. -/
theorem placedWordRunsNext : Obligations.PlacedWordRunsNext := by
  intro s nbits w i hm decoded
  obtain ⟨rest, bytes⟩ := tableBytes_of_decodeTableWord decoded
  have word : (tableBytes nbits w).headD 0 = defaultOpcodes.word i.op := by rw [bytes]; rfl
  exact step_of_fetch rfl (fetch_of_encodedAtPc rfl defaultOpcodes_legal (hasRow_placeWord s word)
    (encodedAtPc_placeWord hm bytes))

end Sys2Proof.Machine

/-! ### The ALU (41_alu.md): the block's outputs, and the instructions that use it -/

namespace Sys2Proof.Machine

open Sys2Proof.Stmt

/-! #### The block -/

/-- A byte made from an exact integer is its remainder modulo 256 (R7, R187). -/
theorem mod256_of_emod {v : Int} {n : Nat} (h : v % 256 = n) : mod256 v = BitVec.ofNat 8 n := by
  apply BitVec.eq_of_toNat_eq
  simp only [mod256, BitVec.toNat_ofInt, BitVec.toNat_ofNat]
  omega

theorem alu_add (a b : Byte) :
    alu selAdd a b =
      { result := some (BitVec.ofNat 8 ((a.toNat + b.toNat) % 256)), fl := none, err := none } := by
  have sum : mod256 ((a.toNat : Int) + b.toNat) = BitVec.ofNat 8 ((a.toNat + b.toNat) % 256) :=
    mod256_of_emod (by omega)
  rw [← sum]
  rfl

/-- The difference is taken as `a + 256 - b`, which as a natural number is exact (R181). -/
theorem alu_sub (a b : Byte) :
    alu selSub a b =
      { result := some (BitVec.ofNat 8 ((a.toNat + 256 - b.toNat) % 256)), fl := none, err := none } := by
  have difference : mod256 ((a.toNat : Int) - b.toNat) =
      BitVec.ofNat 8 ((a.toNat + 256 - b.toNat) % 256) := by
    have := b.isLt
    exact mod256_of_emod (by omega)
  rw [← difference]
  rfl

theorem alu_mul (a b : Byte) :
    alu selMul a b =
      { result := some (BitVec.ofNat 8 ((a.toNat * b.toNat) % 256)), fl := none, err := none } := by
  have product : mod256 ((a.toNat : Int) * b.toNat) = BitVec.ofNat 8 ((a.toNat * b.toNat) % 256) :=
    mod256_of_emod (by norm_cast)
  rw [← product]
  rfl

theorem alu_div_of_zero (a : Byte) {b : Byte} (h : b.toNat = 0) :
    alu selDiv a b = { result := none, fl := none, err := some .divisionByZero } :=
  if_pos h

theorem alu_div_of_ne_zero (a : Byte) {b : Byte} (h : b.toNat ≠ 0) :
    alu selDiv a b = { result := some (BitVec.ofNat 8 (a.toNat / b.toNat)), fl := none, err := none } :=
  if_neg h

theorem alu_cmp (a b : Byte) : alu selCmp a b = { result := none, fl := some (cmpFlags a b), err := none } :=
  rfl

theorem cmpFlags_of_lt {a b : Byte} (h : a.toNat < b.toNat) : cmpFlags a b = 0b100 := if_pos h

theorem cmpFlags_of_gt {a b : Byte} (h : b.toNat < a.toNat) : cmpFlags a b = 0b010 := by
  rw [cmpFlags, if_neg (Nat.lt_asymm h), if_pos h]

theorem cmpFlags_self (a : Byte) : cmpFlags a a = 0b001 := by
  simp only [cmpFlags, Nat.lt_irrefl, if_false]

/-- Settles O10: one equation of the block for each selector, and the comparison's three cases. -/
theorem aluResults : Obligations.AluResults := by
  intro a b
  refine ⟨alu_add a b, alu_sub a b, alu_mul a b, alu_div_of_zero a, alu_div_of_ne_zero a, ?_, ?_, ?_, ?_⟩
  · rintro sel (rfl | rfl | rfl) <;> rfl
  · intro less
    rw [← cmpFlags_of_lt less]
    exact alu_cmp a b
  · intro greater
    rw [← cmpFlags_of_gt greater]
    exact alu_cmp a b
  · rintro rfl
    rw [← cmpFlags_self a]
    exact alu_cmp a a

/-! #### The stops of a step, in the words of the statements -/

/-- An operand fetch past the end of memory faults in every row (R144). -/
theorem operandFetchFaults (op : Op) : OperandFetchFaults op := by
  intro s atPc hasRow past
  have found : lookup s.cfg (s.mem.read s.pc.toNat) = some (s.cfg.row op) := by
    rw [atPc.word, lookup_word atPc.legal hasRow]
  have inMemory := atPc.inMemory
  have atMostTwo := operands_le_two op
  rcases fetch_of_lookup_some inMemory found with ⟨inside, _⟩ | ⟨_, failed⟩
  · exact absurd inside (Nat.not_le.mpr past)
  · rw [step_of_failed atPc.running failed, takeFault_operandFetch _ (by omega), atPc.word]

/-- In a legal map no row stands in for one the table does not have (R108, R112). -/
theorem lookup_word_eq_none {c : Config} {op : Op} (legal : c.opcodes.legal = true)
    (hidden : c.hasRow op = false) : lookup c (c.opcodes.word op) = none := by
  refine lookup_eq_none_iff.mpr fun op' hasRow sameWord => ?_
  obtain rfl := legal_injective legal sameWord
  rw [hidden] at hasRow
  cases hasRow

/-- A row that needs `EXPOSE_SUB_DIV` is not found where that is false (R112). -/
theorem unrecognizedWhenHidden {op : Op} (needs : ∀ c : Config, c.hasRow op = c.exposeSubDiv) :
    UnrecognizedWhenHidden op := by
  intro s atPc notExposed
  have missing : lookup s.cfg (s.mem.read s.pc.toNat) = none := by
    rw [atPc.word, lookup_word_eq_none atPc.legal ((needs s.cfg).trans notExposed)]
  rw [step_of_unrecognized atPc.running (fetch_of_lookup_none atPc.inMemory missing), atPc.word]
  rfl

/-- A byte in the 10 bits of `stop.info` keeps its value (R45). -/
theorem setWidth_eq_ofInt_toNat (v : Byte) : v.setWidth 10 = BitVec.ofInt 10 v.toNat := by
  rw [BitVec.ofInt_natCast, BitVec.ofNat_toNat]

/-- A fault of the execute phase, with the value its error carries as an integer (R276). -/
theorem finish_error_eq_execFault (i : Instr) (s : State) {e : CoreError} {info : Int}
    (carries : e.info = BitVec.ofInt 10 info) :
    finish i s (.error e) = .next (execFault s i e.cause info) := by
  simp only [finish_error, takeFault, carries]
  rfl

/-- An execute phase that meets a bad register index records the index (R273). -/
theorem finish_invalidRegister (i : Instr) (s : State) (r : Byte) :
    finish i s (.error (.invalidRegister r)) = .next (execFault s i .invalidRegister r.toNat) :=
  finish_error_eq_execFault i s (e := .invalidRegister r) (setWidth_eq_ofInt_toNat r)

/-- An execute phase that divides by 0 records the index of the divisor's register (R274). -/
theorem finish_divisionByZero (i : Instr) (s : State) (r : Byte) :
    finish i s (.error (.divisionByZero r)) = .next (execFault s i .divisionByZero r.toNat) :=
  finish_error_eq_execFault i s (e := .divisionByZero r) (setWidth_eq_ofInt_toNat r)

/-! #### The execute phase -/

/-- The first index is checked before the second (R188). -/
theorem aluExec_of_ge_left {ra : Byte} (ha : 8 ≤ ra.toNat) (sel : BitVec 3) (rb : Byte) (s : State) :
    aluExec sel ra rb s = .error (.invalidRegister ra) := by
  rcases aluExec_cases sel ra rb s with ⟨_, e⟩ | ⟨ha', _⟩ | ⟨ha', _⟩
  · exact e
  · exact absurd ha (Nat.not_le.mpr ha')
  · exact absurd ha (Nat.not_le.mpr ha')

theorem aluExec_of_ge_right {ra rb : Byte} (ha : ra.toNat < 8) (hb : 8 ≤ rb.toNat) (sel : BitVec 3)
    (s : State) : aluExec sel ra rb s = .error (.invalidRegister rb) := by
  rcases aluExec_cases sel ra rb s with ⟨ha', _⟩ | ⟨_, _, e⟩ | ⟨_, hb', _⟩
  · exact absurd ha (Nat.not_lt.mpr ha')
  · exact e
  · exact absurd hb (Nat.not_le.mpr hb')

section
variable {sel : BitVec 3} {ra rb : Byte} {s : State} (ha : ra.toNat < 8) (hb : rb.toNat < 8)
include ha hb

/-- With two registers the execute phase is the block's error or the write-back (R170). -/
theorem aluExec_of_lt :
    aluExec sel ra rb s =
      match (alu sel s.x[ra.toNat] s.x[rb.toNat]).err with
      | some .divisionByZero => .error (.divisionByZero rb)
      | some .unsupportedOperation => .error (.unsupportedOperation sel)
      | none => aluWriteBack s ra (alu sel s.x[ra.toNat] s.x[rb.toNat]) := by
  rcases aluExec_cases sel ra rb s with ⟨ha', _⟩ | ⟨_, hb', _⟩ | ⟨_, _, e⟩
  · exact absurd ha (Nat.not_lt.mpr ha')
  · exact absurd hb (Nat.not_lt.mpr hb')
  · exact e

/-- A result of the block is written into the first register (R170). -/
theorem aluExec_of_result {v : Byte}
    (out : alu sel s.x[ra.toNat] s.x[rb.toNat] = { result := some v, fl := none, err := none }) :
    aluExec sel ra rb s = .ok (s.withX (s.x.set ra.toNat v)) := by
  rw [aluExec_of_lt ha hb, out]
  exact aluWriteBack_result ha

/-- A divisor of 0 raises its register's error (R183, R274). -/
theorem aluExec_div_of_zero (zero : s.x[rb.toNat].toNat = 0) :
    aluExec selDiv ra rb s = .error (.divisionByZero rb) := by
  rw [aluExec_of_lt ha hb, alu_div_of_zero _ zero]

end

/-! #### The instructions -/

/-- `mk` makes the two-register instructions that run the ALU block with selector `sel` and leave `pc` to
the dispatcher (R142, R170). -/
structure RunsAlu (mk : Byte → Byte → Instr) (sel : BitVec 3) : Prop where
  exec_eq : ∀ (ra rb : Byte) (s : State),
    exec (mk ra rb) s = finish (mk ra rb) s (aluExec sel ra rb s)
  commit_eq : ∀ (ra rb : Byte) (s t : State), commit (mk ra rb) s t = t.withPc (pcPlus s 3)

theorem runsAlu_add : RunsAlu .add selAdd := ⟨fun _ _ _ => rfl, fun _ _ _ _ => rfl⟩

theorem runsAlu_mul : RunsAlu .mul selMul := ⟨fun _ _ _ => rfl, fun _ _ _ _ => rfl⟩

theorem runsAlu_sub : RunsAlu .sub selSub := ⟨fun _ _ _ => rfl, fun _ _ _ _ => rfl⟩

theorem runsAlu_div : RunsAlu .div selDiv := ⟨fun _ _ _ => rfl, fun _ _ _ _ => rfl⟩

theorem runsAlu_cmp : RunsAlu .cmp selCmp := ⟨fun _ _ _ => rfl, fun _ _ _ _ => rfl⟩

section
variable {mk : Byte → Byte → Instr} {sel : BitVec 3} (runs : RunsAlu mk sel)
include runs

/-- The register checks, in their order, of every instruction that runs the block (R188). -/
theorem RunsAlu.registersChecked : RegistersChecked mk := by
  refine ⟨fun s ra rb ha => ?_, fun s ra rb ha hb => ?_⟩
  · rw [runs.exec_eq, aluExec_of_ge_left ha, finish_invalidRegister]
  · rw [runs.exec_eq, aluExec_of_ge_right ha hb, finish_invalidRegister]

/-- An instruction whose selector gives a result writes it and advances `pc` by 3 (R142, R170). -/
theorem RunsAlu.exec_of_result {s : State} {ra rb v : Byte} (ha : ra.toNat < 8) (hb : rb.toNat < 8)
    (out : alu sel s.x[ra.toNat] s.x[rb.toNat] = { result := some v, fl := none, err := none }) :
    exec (mk ra rb) s = .next { s with x := s.x.set ra.toNat v, pc := pcPlus s 3 } := by
  rw [runs.exec_eq, aluExec_of_result ha hb out, finish_ok, runs.commit_eq]
  rfl

/-- The whole rule of an instruction whose selector gives the result `f` on every two bytes. -/
theorem RunsAlu.aluInstrRule {op : Op} {word : Byte} {f : Nat → Nat → Nat}
    (encoded : ∀ ra rb : Byte, encode Config.fullTable (mk ra rb) = [word, ra, rb])
    (out : ∀ a b : Byte,
      alu sel a b = { result := some (BitVec.ofNat 8 (f a.toNat b.toNat)), fl := none, err := none }) :
    AluInstrRule mk op word f :=
  ⟨encoded, fun _ _ _ ha hb => runs.exec_of_result ha hb (out _ _), runs.registersChecked,
    operandFetchFaults op⟩

end

/-- Settles O38: ADD runs the block with the selector of the sum. -/
theorem addWritesSum : Obligations.AddWritesSum :=
  runsAlu_add.aluInstrRule (fun _ _ => rfl) alu_add

/-- Settles O39: MUL runs the block with the selector of the product. -/
theorem mulWritesProduct : Obligations.MulWritesProduct :=
  runsAlu_mul.aluInstrRule (fun _ _ => rfl) alu_mul

/-- Settles O40: SUB runs the block with the selector of the difference, and its row needs
`EXPOSE_SUB_DIV`. -/
theorem subWritesDifference : Obligations.SubWritesDifference :=
  ⟨runsAlu_sub.aluInstrRule (fun _ _ => rfl) alu_sub, unrecognizedWhenHidden fun _ => rfl⟩

/-- A divisor of 0 faults with the index of its register (R183, R274). -/
theorem exec_div_of_zero {s : State} {ra rb : Byte} (ha : ra.toNat < 8) (hb : rb.toNat < 8)
    (zero : s.x[rb.toNat].toNat = 0) :
    exec (.div ra rb) s = .next (execFault s (.div ra rb) .divisionByZero rb.toNat) := by
  rw [runsAlu_div.exec_eq, aluExec_div_of_zero ha hb zero, finish_divisionByZero]

/-- Settles O41: the block's two answers to a division, and the stops of every row that needs
`EXPOSE_SUB_DIV`. -/
theorem divWritesQuotient : Obligations.DivWritesQuotient :=
  ⟨fun _ _ => rfl,
   fun _ _ _ ha hb nonzero => runsAlu_div.exec_of_result ha hb (alu_div_of_ne_zero _ nonzero),
   fun _ _ _ ha hb zero => exec_div_of_zero ha hb zero,
   runsAlu_div.registersChecked, operandFetchFaults .div, unrecognizedWhenHidden fun _ => rfl⟩

/-- Settles O42: a CMP of two registers writes their comparison, and its stops are those of its kind. -/
theorem cmpWritesFlags : Obligations.CmpWritesFlags :=
  ⟨fun _ _ => rfl, fun s _ _ ha hb => exec_cmp_of_lt ha hb s, runsAlu_cmp.registersChecked,
    operandFetchFaults .cmp⟩

end Sys2Proof.Machine

/-! ### HLT, LDI and PRN (42_system_and_data.md) -/

namespace Sys2Proof.Machine

open Sys2Proof.Stmt

/-! #### LDI -/

/-- LDI of a register writes the immediate and advances `pc` by 3 (R204). -/
theorem exec_ldi_of_lt {r : Byte} (hr : r.toNat < 8) (s : State) (imm8 : Byte) :
    exec (.ldi r imm8) s = .next { s with x := s.x.set r.toNat imm8, pc := pcPlus s 3 } := by
  simp only [exec, execLdi, writeReg_of_lt hr]
  rfl

/-- LDI of an index above 7 raises `InvalidRegister` (R204, R273). -/
theorem exec_ldi_of_ge {r : Byte} (hr : 8 ≤ r.toNat) (s : State) (imm8 : Byte) :
    exec (.ldi r imm8) s = .next (execFault s (.ldi r imm8) .invalidRegister r.toNat) := by
  simp only [exec, execLdi, writeReg_of_ge hr]
  exact finish_invalidRegister (.ldi r imm8) s r

/-- Settles O25: LDI's two cases of the register index, and the operand fetch of every row. -/
theorem ldiLoadsImmediate : Obligations.LdiLoadsImmediate :=
  ⟨fun _ _ => rfl, fun s _ imm8 hr => exec_ldi_of_lt hr s imm8,
    fun s _ imm8 hr => exec_ldi_of_ge hr s imm8, operandFetchFaults .ldi⟩

/-! #### PRN -/

/-- PRN of a register emits its byte and advances `pc` by 2 (R207). -/
theorem exec_prn_of_lt {r : Byte} (hr : r.toNat < 8) (s : State) :
    exec (.prn r) s = .next { s with output := s.output ++ [s.x[r.toNat]], pc := pcPlus s 2 } := by
  simp only [exec, execPrn, readReg_of_lt hr]
  rfl

/-- PRN of an index above 7 raises `InvalidRegister` and emits nothing (R207, R273). -/
theorem registerChecked_prn : RegisterChecked .prn := by
  intro s r hr
  simp only [exec, execPrn, readReg_of_ge hr]
  exact finish_invalidRegister (.prn r) s r

/-- Settles O26: PRN's two cases of the register index, and the operand fetch of every row. -/
theorem prnEmitsRegister : Obligations.PrnEmitsRegister :=
  ⟨fun _ => rfl, fun s _ hr => exec_prn_of_lt hr s, registerChecked_prn, operandFetchFaults .prn⟩

/-! #### HLT -/

/-- HLT has one outcome in every state (R200). -/
theorem exec_hlt (s : State) : exec .hlt s = .next (haltedByHlt s) := rfl

/-- The state HLT leaves, in the words of the statements (R147, R200). -/
theorem haltedByHlt_eq_haltOf (s : State) :
    haltedByHlt s =
      haltOf { s with pc := pcPlus s 1 } .hltExecuted .execute s.pc s.cfg.opcodes.hlt := rfl

/-- Settles O24: HLT's one outcome is the state the claim writes out. -/
theorem hltHaltsAfterAdvance : Obligations.HltHaltsAfterAdvance := by
  refine ⟨rfl, rfl, rfl, fun s => ?_⟩
  rw [exec_hlt, haltedByHlt_eq_haltOf]

/-! #### LDI, then PRN -/

/-- The event on the port over a step that emits one byte is that byte (R51, R52). -/
theorem outEvent_of_output_eq_append {s t : State} {v : Byte} (h : t.output = s.output ++ [v]) :
    outEvent s t = some v := by
  rw [outEvent, h, List.drop_left, List.head?_cons]

/-- Settles O27: the register PRN reads is the one LDI has just written. -/
theorem ldiThenPrnEmitsImmediate : Obligations.LdiThenPrnEmitsImmediate := by
  intro s r v hr
  have prn := exec_prn_of_lt hr { s with x := s.x.set r.toNat v, pc := pcPlus s 3 }
  rw [Vector.getElem_set_self hr] at prn
  exact ⟨_, _, exec_ldi_of_lt hr s v, prn, rfl, outEvent_of_output_eq_append rfl, rfl⟩

end Sys2Proof.Machine

/-! ### PUSH and POP (43_stack.md) -/

namespace Sys2Proof.Machine

open Sys2Proof.Stmt

/-- An execute phase that asks for an address outside memory records the exact address (R272). -/
theorem finish_outOfRange (i : Instr) (s : State) (addr : Int) :
    finish i s (.error (.outOfRange addr)) = .next (execFault s i .outOfRange addr) :=
  finish_error_eq_execFault i s (e := .outOfRange addr) rfl

/-! #### PUSH -/

/-- PUSH with a byte left below `sp` stores the register there (R221). -/
theorem exec_push_of_pos {r : Byte} (hr : r.toNat < 8) {s : State} (h0 : 0 < s.sp.toNat)
    (h1 : s.sp.toNat ≤ 256) :
    exec (.push r) s = .next { s with
      mem := s.mem.write (s.sp.toNat - 1) s.x[r.toNat]
      sp := BitVec.ofNat 9 (s.sp.toNat - 1)
      pc := pcPlus s 2 } := by
  simp only [exec, execPush, readReg_of_lt hr, bind, Except.bind, pushByte_ok _ h0 h1]
  rfl

/-- PUSH at `sp` = 0 raises `OutOfRange(-1)` (R221). -/
theorem exec_push_of_zero {r : Byte} (hr : r.toNat < 8) {s : State} (zero : s.sp.toNat = 0) :
    exec (.push r) s = .next (execFault s (.push r) .outOfRange (-1)) := by
  simp only [exec, execPush, readReg_of_lt hr, bind, Except.bind, pushByte_zero _ zero]
  exact finish_outOfRange (.push r) s (-1)

/-- PUSH of an index above 7 raises `InvalidRegister`, whatever `sp` is (R221, R273). -/
theorem registerChecked_push : RegisterChecked .push := by
  intro s r hr
  simp only [exec, execPush, readReg_of_ge hr]
  exact finish_invalidRegister (.push r) s r

/-- Settles O28: PUSH's cases of the register index and of `sp`, and the operand fetch of every row. -/
theorem pushStoresBelowSp : Obligations.PushStoresBelowSp :=
  ⟨fun _ => rfl, fun _ _ hr h0 h1 => exec_push_of_pos hr h0 h1, fun _ _ hr zero => exec_push_of_zero hr zero,
    registerChecked_push, operandFetchFaults .push⟩

/-! #### POP -/

/-- POP with `sp` inside memory reads the byte there into the register (R224). -/
theorem exec_pop_of_le {r : Byte} (hr : r.toNat < 8) {s : State} (inside : s.sp.toNat ≤ 255) :
    exec (.pop r) s = .next { s with
      x := s.x.set r.toNat (s.mem.read s.sp.toNat)
      sp := BitVec.ofNat 9 (s.sp.toNat + 1)
      pc := pcPlus s 2 } := by
  simp only [exec, execPop, checkReg_of_lt hr, popByte_ok inside, bind, Except.bind, writeReg_of_lt hr]
  rfl

/-- POP with `sp` above 255 raises `OutOfRange(sp)` (R224). -/
theorem exec_pop_of_gt {r : Byte} (hr : r.toNat < 8) {s : State} (outside : 255 < s.sp.toNat) :
    exec (.pop r) s = .next (execFault s (.pop r) .outOfRange s.sp.toNat) := by
  simp only [exec, execPop, checkReg_of_lt hr, popByte_error outside]
  exact finish_outOfRange (.pop r) s s.sp.toNat

/-- POP of an index above 7 raises `InvalidRegister`, whatever `sp` is (R224, R273). -/
theorem registerChecked_pop : RegisterChecked .pop := by
  intro s r hr
  simp only [exec, execPop, checkReg_of_ge hr]
  exact finish_invalidRegister (.pop r) s r

/-- Settles O29: POP's cases of the register index and of `sp`, and the operand fetch of every row. -/
theorem popLoadsFromSp : Obligations.PopLoadsFromSp :=
  ⟨fun _ => rfl, fun _ _ hr inside => exec_pop_of_le hr inside,
    fun _ _ hr outside => exec_pop_of_gt hr outside, registerChecked_pop, operandFetchFaults .pop⟩

/-! #### PUSH, then POP -/

/-- `sp` moved down by a push is one less, without wrapping (R220). -/
theorem pushed_sp_toNat (s : State) : (BitVec.ofNat 9 (s.sp.toNat - 1)).toNat = s.sp.toNat - 1 := by
  rw [BitVec.toNat_ofNat]
  omega

/-- Settles O30: a PUSH that completed found `sp` in 1..256, so POP finds its byte one below the old `sp`;
the register gets back its own value, and `sp` moves down and up again. -/
theorem popUndoesPush : Obligations.PopUndoesPush := by
  intro s t r hr running hm _ h completed
  obtain ⟨h0, h1, -⟩ := push_completed hr h completed
  obtain rfl := Host.Outcome.next.inj ((exec_push_of_pos hr h0 h1).symm.trans h)
  have spNat := pushed_sp_toNat s
  have stored := Memory.read_write_same (s.sp.toNat - 1) s.x[r.toNat] s.mem hm
  refine ⟨_, exec_pop_of_le hr (by simp only [spNat]; omega), running, ?_, ?_, stored⟩
  · simp only [spNat, stored, Vector.set_getElem_self]
  · simp only [spNat, Nat.sub_add_cancel h0, BitVec.ofNat_toNat, BitVec.setWidth_eq]

end Sys2Proof.Machine

/-! ### Control transfer (44_control_transfer.md) -/

namespace Sys2Proof.Machine

open Sys2Proof.Stmt

/-! #### Jumps and branches -/

/-- The model's widening of a byte is the number it stands for, in 9 bits (R240). -/
theorem zext9_eq_ofNat (v : Byte) : zext9 v = BitVec.ofNat 9 v.toNat :=
  (BitVec.ofNat_toNat 9 v).symm

/-- `mk` makes the one-register instructions that jump to the register where `taken` holds, fall through
elsewhere, and set `pc` on both paths (R148). JMP is the one that is always taken. -/
structure BranchesOn (mk : Byte → Instr) (taken : State → Bool) : Prop where
  exec_eq : ∀ (r : Byte) (s : State), exec (mk r) s = finish (mk r) s (branch (taken s) r s)
  setsPc : ∀ r : Byte, (mk r).op.setsPc = true

theorem branchesOn_jmp : BranchesOn .jmp (fun _ => true) := ⟨fun _ _ => rfl, fun _ => rfl⟩

theorem branchesOn_jeq : BranchesOn .jeq (fun s => flagE s.fl) := ⟨fun _ _ => rfl, fun _ => rfl⟩

theorem branchesOn_jne : BranchesOn .jne (fun s => !flagE s.fl) := ⟨fun _ _ => rfl, fun _ => rfl⟩

section
variable {mk : Byte → Instr} {taken : State → Bool} (branches : BranchesOn mk taken) {s : State}
include branches

/-- A branch that is taken reads its register and goes there (R240). -/
theorem BranchesOn.jumps (h : taken s = true) : Jumps mk s := by
  intro r
  rw [branches.exec_eq, h, branch_taken]
  refine ⟨fun hr => ?_, fun hr => ?_⟩
  · rw [jumpTo_of_lt hr, finish_ok, commit_setsPc (branches.setsPc r), zext9_eq_ofNat]
    rfl
  · rw [jumpTo_of_ge hr, finish_invalidRegister]

/-- A branch that is not taken goes on after its two bytes, whatever its register (R148). -/
theorem BranchesOn.falls_through (h : taken s = false) (r : Byte) :
    exec (mk r) s = .next { s with pc := pcPlus s 2 } := by
  rw [branches.exec_eq, h, branch_not_taken, finish_ok, commit_setsPc (branches.setsPc r)]
  rfl

/-- Both ways of a branch whose register is 0..7. -/
theorem BranchesOn.exec_of_lt {r : Byte} (hr : r.toNat < 8) :
    exec (mk r) s = .next { s with
      pc := if taken s then BitVec.ofNat 9 s.x[r.toNat].toNat else pcPlus s 2 } := by
  cases h : taken s with
  | true => exact (branches.jumps h r).1 hr
  | false => exact branches.falls_through h r

end

/-- Settles O33: JMP is the branch that is always taken. -/
theorem jmpJumps : Obligations.JmpJumps :=
  ⟨fun _ => rfl, fun _ => branchesOn_jmp.jumps rfl, operandFetchFaults .jmp⟩

/-- Settles O34: JEQ is the branch on E. -/
theorem jeqJumpsWhenEqual : Obligations.JeqJumpsWhenEqual :=
  ⟨fun _ => rfl, fun _ equal => branchesOn_jeq.jumps equal,
    fun _ r unequal => branchesOn_jeq.falls_through unequal r, operandFetchFaults .jeq⟩

/-- Settles O35: JNE is the branch on the complement of E. -/
theorem jneJumpsWhenNotEqual : Obligations.JneJumpsWhenNotEqual :=
  ⟨fun _ => rfl, fun _ unequal => branchesOn_jne.jumps (congrArg not unequal),
    fun _ r equal => branchesOn_jne.falls_through (congrArg not equal) r, operandFetchFaults .jne⟩

/-! #### CMP, then a branch -/

/-- The comparison sets E exactly when the two bytes are equal (R178). -/
theorem flagE_cmpFlags (a b : Byte) : flagE (cmpFlags a b) = decide (a = b) := by
  rcases Nat.lt_trichotomy a.toNat b.toNat with less | same | greater
  · have ne : a ≠ b := BitVec.ne_of_lt less
    rw [cmpFlags_of_lt less, decide_eq_false ne]
    rfl
  · obtain rfl := BitVec.eq_of_toNat_eq same
    rw [cmpFlags_self, decide_eq_true rfl]
    rfl
  · have ne : a ≠ b := (BitVec.ne_of_lt greater).symm
    rw [cmpFlags_of_gt greater, decide_eq_false ne]
    rfl

/-- Settles O37: the E that JEQ and JNE branch on is the equality CMP has just recorded. -/
theorem branchesFollowCompare : Obligations.BranchesFollowCompare := by
  intro s ra rb r ha hb hr
  refine ⟨_, exec_cmp_of_lt ha hb s, ?_, ?_⟩
  · rw [branchesOn_jeq.exec_of_lt hr]
    simp only [State.withPc_fl, State.withFl_fl, flagE_cmpFlags, decide_eq_true_eq]
  · rw [branchesOn_jne.exec_of_lt hr]
    simp only [State.withPc_fl, State.withFl_fl, flagE_cmpFlags, Bool.not_eq_true', decide_eq_false_iff_not,
      ite_not]

/-! #### CALL -/

/-- The address a push writes is inside memory for `sp` in 1..256 (R221). -/
theorem pushAddr_inRange {s : State} (h0 : 0 < s.sp.toNat) (h1 : s.sp.toNat ≤ 256) :
    0 ≤ pushAddr s ∧ pushAddr s ≤ 255 := by
  simp only [pushAddr]
  omega

theorem pushAddr_of_zero {s : State} (zero : s.sp.toNat = 0) : pushAddr s = -1 := by
  simp only [pushAddr, zero]
  rfl

/-- A return address up to 255 is pushed as a byte (R241). -/
theorem returnAddress_of_le {s : State} (h : s.pc.toNat ≤ 253) :
    returnAddress s = .ok (BitVec.ofNat 8 (s.pc.toNat + 2)) :=
  if_pos (by omega)

/-- A return address above 255 has no byte (R241). -/
theorem returnAddress_of_gt {s : State} (h : 253 < s.pc.toNat) :
    returnAddress s = .error (.outOfRange (s.pc.toNat + 2)) :=
  if_neg (by omega)

/-- CALL with a byte left below `sp` and a byte for its return address stores it there and jumps (R241). -/
theorem exec_call_of_pos {r : Byte} (hr : r.toNat < 8) {s : State} (h0 : 0 < s.sp.toNat)
    (h1 : s.sp.toNat ≤ 256) (hp : s.pc.toNat ≤ 253) :
    exec (.call r) s = .next { s with
      mem := s.mem.write (s.sp.toNat - 1) (BitVec.ofNat 8 (s.pc.toNat + 2))
      sp := BitVec.ofNat 9 (s.sp.toNat - 1)
      pc := BitVec.ofNat 9 s.x[r.toNat].toNat } := by
  simp only [exec, execCall, readReg_of_lt hr, bind, Except.bind, checkRange_ok (pushAddr_inRange h0 h1),
    returnAddress_of_le hp, pushByte_ok _ h0 h1, ← zext9_eq_ofNat]
  rfl

/-- CALL at `sp` = 0 raises `OutOfRange(-1)`, whatever its return address (R241). -/
theorem exec_call_of_zero {r : Byte} (hr : r.toNat < 8) {s : State} (zero : s.sp.toNat = 0) :
    exec (.call r) s = .next (execFault s (.call r) .outOfRange (-1)) := by
  simp only [exec, execCall, readReg_of_lt hr, bind, Except.bind, pushAddr_of_zero zero,
    checkRange_error (addr := -1) (by decide)]
  exact finish_outOfRange (.call r) s (-1)

/-- CALL whose return address has no byte raises `OutOfRange(p + 2)` (R241). -/
theorem exec_call_of_pc_gt {r : Byte} (hr : r.toNat < 8) {s : State} (h0 : 0 < s.sp.toNat)
    (h1 : s.sp.toNat ≤ 256) (hp : 253 < s.pc.toNat) :
    exec (.call r) s = .next (execFault s (.call r) .outOfRange (s.pc.toNat + 2)) := by
  simp only [exec, execCall, readReg_of_lt hr, bind, Except.bind, checkRange_ok (pushAddr_inRange h0 h1),
    returnAddress_of_gt hp]
  exact finish_outOfRange (.call r) s (s.pc.toNat + 2)

/-- CALL of an index above 7 raises `InvalidRegister`, whatever `sp` and `pc` are (R241, R273). -/
theorem registerChecked_call : RegisterChecked .call := by
  intro s r hr
  simp only [exec, execCall, readReg_of_ge hr]
  exact finish_invalidRegister (.call r) s r

/-- Settles O31: CALL's cases in the order of its checks: the register, `sp`, the return address; and the
operand fetch of every row. -/
theorem callPushesReturnAddress : Obligations.CallPushesReturnAddress :=
  ⟨fun _ => rfl, fun _ _ hr h0 h1 hp => exec_call_of_pos hr h0 h1 hp,
    fun _ _ hr zero => exec_call_of_zero hr zero,
    fun _ _ hr h0 h1 hp => exec_call_of_pc_gt hr h0 h1 hp, registerChecked_call, operandFetchFaults .call⟩

/-! #### RET -/

/-- RET with `sp` inside memory goes to the byte there (R244). -/
theorem exec_ret_of_le {s : State} (inside : s.sp.toNat ≤ 255) :
    exec .ret s = .next { s with
      pc := BitVec.ofNat 9 (s.mem.read s.sp.toNat).toNat
      sp := BitVec.ofNat 9 (s.sp.toNat + 1) } := by
  simp only [exec, execRet, popByte_ok inside, bind, Except.bind, ← zext9_eq_ofNat]
  rfl

/-- RET with `sp` above 255 raises `OutOfRange(sp)` (R244). -/
theorem exec_ret_of_gt {s : State} (outside : 255 < s.sp.toNat) :
    exec .ret s = .next (execFault s .ret .outOfRange s.sp.toNat) := by
  simp only [exec, execRet, popByte_error outside]
  exact finish_outOfRange .ret s s.sp.toNat

/-- Settles O32: RET's two cases of `sp`. -/
theorem retPopsPc : Obligations.RetPopsPc :=
  ⟨rfl, fun _ inside => exec_ret_of_le inside, fun _ outside => exec_ret_of_gt outside⟩

/-! #### CALL, then RET -/

/-- A completed CALL found its return address to have a byte (R241). -/
theorem call_completed_pc_le {s t : State} {r : Byte} (h : exec (.call r) s = .next t)
    (completed : t.run ≠ .faulted) : s.pc.toNat ≤ 253 := by
  obtain ⟨_, ⟨_, _, _, hp, _⟩, _⟩ := exec_completed h (by simp) completed
  exact hp

/-- A completed CALL has moved `sp` down by one (R220). -/
theorem call_completed_sp {s t : State} {r : Byte} (h : exec (.call r) s = .next t)
    (completed : t.run ≠ .faulted) : t.sp.toNat = s.sp.toNat - 1 := by
  obtain ⟨_, ⟨_, _, _, _, rfl⟩, rfl⟩ := exec_completed h (by simp) completed
  exact pushed_sp_toNat s

/-- Settles O36: RET pops the return address, below 256, that CALL stored one below the old `sp`. -/
theorem retResumesAfterCall : Obligations.RetResumesAfterCall := by
  intro s t u r _ hm _ h completed sameSp sameByte
  obtain ⟨h0, h1, stored⟩ := call_completed h completed
  have hp := call_completed_pc_le h completed
  have spDown := call_completed_sp h completed
  have spNat : u.sp.toNat = s.sp.toNat - 1 := by rw [sameSp, spDown]
  have popped : u.mem.read u.sp.toNat = BitVec.ofNat 8 (s.pc.toNat + 2) := by
    rw [sameByte, spDown, stored, Memory.read_write_same _ _ _ hm]
  refine ⟨_, exec_ret_of_le (by omega), rfl, ?_, ?_⟩
  · simp only [popped, BitVec.toNat_ofNat]
    omega
  · simp only [spNat, Nat.sub_add_cancel h0, BitVec.ofNat_toNat, BitVec.setWidth_eq]

end Sys2Proof.Machine

/-! ### Exceptions (60_exceptions.md): every step answers a state, and a fatal error commits nothing -/

namespace Sys2Proof.Machine

/-- Settles O22: no case of the step and no case of an instruction is a stop of the model. -/
theorem everyStepAnswersNext : Obligations.EveryStepAnswersNext :=
  ⟨step_answers_next, exec_answers_next⟩

/-! #### What had been fetched before a fatal error -/

/-- `word` and the `n` bytes `ops` are what a step that ends in `phase` has read at `pc`: in the opcode
fetch the word is still 0, and the operands are the bytes after the word, in order, at most two. No error
is raised in the decode phase (R276). -/
structure FetchedBefore (s : State) (phase : StopPhase) (word : Byte) (ops : List Byte) (n : Nat) :
    Prop where
  phase_ne : phase ≠ .decode
  word_eq : word = if phase = .opcodeFetch then 0 else s.mem.read s.pc.toNat
  ops_eq : ops = (List.range' (s.pc.toNat + 1) n).map s.mem.read
  le_two : n ≤ 2

/-- The `k`-th operand recorded: the byte read there, or 0 when the operand was not read (R276). -/
theorem FetchedBefore.getD_ops {s : State} {phase : StopPhase} {w : Byte} {ops : List Byte} {n : Nat}
    (h : FetchedBefore s phase w ops n) (k : Nat) :
    ops.getD k 0 = if k + 1 ≤ n then s.mem.read (s.pc.toNat + (k + 1)) else 0 := by
  rw [h.ops_eq]
  split
  next read => rw [getD_map_read _ _ read, Nat.add_assoc, Nat.add_comm 1 k]
  next notRead => exact List.getD_eq_default _ _ (by simpa using notRead)

/-- The operand count recorded is exact (R45). -/
theorem FetchedBefore.nops_toNat {s : State} {phase : StopPhase} {w : Byte} {ops : List Byte} {n : Nat}
    (h : FetchedBefore s phase w ops n) : (BitVec.ofNat 2 ops.length).toNat = n := by
  have atMostTwo := h.le_two
  rw [h.ops_eq, List.length_map, List.length_range', BitVec.toNat_ofNat]
  omega

/-- A fetch that fails gives what it has read: nothing in the opcode fetch, and in the operand fetch the
bytes up to the end of memory (R141, R144). -/
theorem fetchedBefore_of_failed {s : State} {e : CoreError} {phase : StopPhase} {w : Byte}
    {ops : List Byte} (h : fetch s = .failed e phase w ops) : ∃ n, FetchedBefore s phase w ops n := by
  rcases fetch_cases s with ⟨_, h'⟩ | ⟨_, _, h'⟩ | ⟨row, _, found, ⟨_, h'⟩ | ⟨past, h'⟩⟩ <;>
    rw [h] at h' <;> cases h'
  · exact ⟨0, by decide, rfl, rfl, by decide⟩
  · have rowCount := lookup_operands found
    have atMostTwo := operands_le_two row.op
    exact ⟨_, by decide, rfl, rfl, by omega⟩

/-- The first of two bytes read in order, as many as a row has operands (R6). -/
theorem take_reads (m : Memory) (a : Nat) : {n : Nat} → n ≤ 2 →
    [m.read a, m.read (a + 1)].take n = (List.range' a n).map m.read
  | 0, _ => rfl
  | 1, _ => rfl
  | 2, _ => rfl

/-- An instruction fetched has its word and all its operand bytes read when it executes (R144, R145). -/
theorem fetchedBefore_of_instr {s : State} {i : Instr} (h : fetch s = .instr i) :
    FetchedBefore s .execute (wordOf i s) i.operandBytes i.op.operands := by
  obtain ⟨-, word, -, built⟩ := fetch_instr h
  have ops : i.operandBytes = [s.mem.read (s.pc.toNat + 1), s.mem.read (s.pc.toNat + 2)].take i.op.operands :=
    (congrArg Instr.operandBytes built).trans (operandBytes_build _ _ _)
  exact ⟨by decide, word.symm, ops.trans (take_reads _ _ (operands_le_two _)), operands_le_two _⟩

/-! #### A step that ends Faulted -/

/-- A Running core's step that ends Faulted has taken a fault, with what it had fetched (R145, R276). -/
theorem step_faulted {s t : State} (running : s.run = .running) (h : step s = .next t)
    (faulted : t.run = .faulted) :
    ∃ e phase w ops n, Raised e ∧ FetchedBefore s phase w ops n ∧ t = takeFault s e phase w ops := by
  rcases step_cases s with
    ⟨notRunning, _⟩ | ⟨_, ⟨e, phase, w, ops, failed, h'⟩ | ⟨w, _, h'⟩ | ⟨i, fetched, h'⟩⟩
  · exact absurd running notRunning
  · rw [h] at h'
    cases h'
    obtain ⟨raised, -⟩ := fetch_failed failed
    obtain ⟨n, before⟩ := fetchedBefore_of_failed failed
    exact ⟨e, phase, w, ops, n, raised, before, rfl⟩
  · rw [h] at h'
    cases h'
    cases faulted
  · rcases exec_next (h'.symm.trans h) with ⟨e, raised, rfl⟩ | ⟨_, u, written, rfl⟩ | ⟨_, rfl⟩
    · exact ⟨e, _, _, _, _, raised, fetchedBefore_of_instr fetched, rfl⟩
    · obtain ⟨sameRun, -⟩ := writes_keep_run written
      rw [commit_run, sameRun, running] at faulted
      cases faulted
    · cases faulted

/-- Settles O46: the step has taken a fault, whose record is of what it had fetched. -/
theorem fatalErrorCommitsNothing : Obligations.FatalErrorCommitsNothing := by
  intro s t running h faulted
  obtain ⟨e, phase, w, ops, n, raised, before, rfl⟩ := step_faulted running h faulted
  have nops : (takeFault s e phase w ops).stop.nops.toNat = n := before.nops_toNat
  rw [nops]
  exact ⟨rfl, rfl, before.phase_ne, cause_of_raised raised, before.word_eq, before.getD_ops 0,
    before.getD_ops 1⟩

end Sys2Proof.Machine

/-! ### Reset and the host (70_reset_and_hazards.md): the actions between steps, and the Loader -/

namespace Sys2Proof.Machine

open Sys2Proof.Stmt

/-! #### Reset and start -/

/-- Settles O1: each field is as `State.resetWith` lists it. -/
theorem resetSetsEveryField : Obligations.ResetSetsEveryField := by
  refine ⟨fun s => ⟨fun k hk => ?_, rfl, rfl, rfl, rfl, rfl, rfl, rfl, rfl, rfl, rfl, rfl, rfl, rfl,
    Memory.read_nil, rfl⟩, rfl, rfl, rfl⟩
  exact Vector.getElem_replicate hk

/-- `start` in Idle sets `run` and nothing else (R303). -/
theorem hostStart_of_idle {s : State} (idle : s.run = .idle) : hostStart s = { s with run := .running } := by
  simp only [hostStart, idle]

/-- Settles O2: the two cases of a start, and the first of them after reset. -/
theorem startOnlyFromIdle : Obligations.StartOnlyFromIdle :=
  fun _ => ⟨hostStart_of_idle, hostStart_of_not_idle, rfl, rfl⟩

/-! #### Loading an image -/

/-- A load write in Idle is a memory write at the address given (R306). -/
theorem hostLoad_of_idle {s : State} (idle : s.run = .idle) (addr data : Byte) :
    hostLoad addr data s = s.withMem (s.mem.write addr.toNat data) := by
  simp only [hostLoad, idle, State.withMem]

/-- Load writes in Idle that end inside memory store the bytes one after the other. -/
theorem loadFrom_of_idle : (image : List Byte) → {addr : Nat} → {s : State} → s.run = .idle →
    addr + image.length ≤ 256 → loadFrom addr image s = s.withMem (s.mem.writeAll addr image)
  | [], _, _, _, _ => rfl
  | b :: rest, addr, s, idle, inside => by
    rw [List.length_cons] at inside
    have addrNat : (BitVec.ofNat 8 addr).toNat = addr := Nat.mod_eq_of_lt (by omega)
    rw [loadFrom, hostLoad_of_idle idle, addrNat, Memory.writeAll, if_pos (by omega)]
    exact loadFrom_of_idle rest (s := s.withMem _) idle (by omega)

theorem loadImage_of_idle {image : List Byte} {s : State} (idle : s.run = .idle)
    (short : image.length ≤ 256) : loadImage image s = s.withMem (s.mem.writeAll 0 image) :=
  loadFrom_of_idle image idle (by omega)

/-- Bytes stored below an address leave it as it was. -/
theorem Memory.read_writeAll_above {a : Nat} : (bytes : List Byte) → {m : Memory} → {addr : Nat} →
    addr + bytes.length ≤ a → (m.writeAll addr bytes).read a = m.read a
  | [], _, _, _ => rfl
  | b :: rest, m, addr, h => by
    rw [List.length_cons] at h
    rw [Memory.writeAll, Memory.read_writeAll_above rest (by omega)]
    split
    · exact Memory.read_write_other (by omega) b m
    · rfl

/-- An image stored from address 0 on, at every address: its own bytes, and above them what was there. -/
theorem Memory.read_writeAll_zero {m : Memory} {image : List Byte} (hm : m.wf = true)
    (short : image.length ≤ 256) (a : Nat) :
    (m.writeAll 0 image).read a = if a < image.length then image.getD a 0 else m.read a := by
  split
  next inImage =>
    have stored := Memory.read_writeAll hm inImage (addr := 0) (by omega)
    rw [Nat.zero_add] at stored
    rw [stored, List.getD_eq_getElem image 0 inImage]
  next above => exact Memory.read_writeAll_above image (by omega)

/-- Settles O3: loading is writing, one byte or all of the image, and happens in Idle alone. -/
theorem loadedImageIsInMemory : Obligations.LoadedImageIsInMemory := by
  refine ⟨fun s addr data idle hm => ?_, fun s image idle short hm => ?_,
    fun s addr data notIdle => hostLoad_of_not_idle notIdle addr data⟩
  · rw [hostLoad_of_idle idle]
    refine ⟨rfl, fun a => ?_⟩
    rw [State.withMem_mem, Memory.read_write hm]
    simp only [eq_comm]
  · rw [loadImage_of_idle idle short]
    exact ⟨rfl, Memory.wf_writeAll image s.mem 0 hm, Memory.read_writeAll_zero hm short⟩

/-- The core after the boot order of R309: the state after reset, Running, with the image stored. -/
theorem boot_eq {image : List Byte} (short : image.length ≤ 256) (s : State) :
    boot image s =
      { State.resetWith s.cfg with run := .running, mem := Memory.writeAll [] 0 image } := by
  have loaded : loadImage image (hostReset s) = (hostReset s).withMem (Memory.writeAll [] 0 image) :=
    loadImage_of_idle rfl short
  rw [boot, loaded, hostStart_of_idle rfl]
  rfl

/-- Settles O4: reset, load and start in turn; above the image memory is as reset left it. -/
theorem bootStartsAtAddressZero : Obligations.BootStartsAtAddressZero := by
  intro s image short
  rw [boot_eq short]
  refine ⟨rfl, fun a => (Memory.read_writeAll_zero Memory.wf_nil short a).trans ?_⟩
  split
  · rfl
  next above => exact (List.getD_eq_default image 0 (Nat.le_of_not_lt above)).symm

/-! #### The events the host has -/

@[simp] theorem hostLoad_output (addr data : Byte) (s : State) : (hostLoad addr data s).output = s.output := by
  by_cases idle : s.run = .idle
  · rw [hostLoad_of_idle idle, State.withMem_output]
  · rw [hostLoad_of_not_idle idle]

@[simp] theorem hostStart_output (s : State) : (hostStart s).output = s.output := by
  by_cases idle : s.run = .idle
  · rw [hostStart_of_idle idle]
  · rw [hostStart_of_not_idle idle]

/-- A step takes no event back from the output (R52). -/
theorem step_output_prefix {s t : State} (h : step s = .next t) : s.output <+: t.output := by
  rcases step_effect h with same | ⟨i, _, eff⟩
  · rw [same.output]
  · rcases eff.output with kept | ⟨r, hr, _, emitted⟩
    · rw [kept]
    · rw [emitted]
      exact List.prefix_append _ _

/-- No action but reset takes an event back from the output. -/
theorem hostApply_output_prefix {a : HostAction} {s t : State} (notReset : a ≠ .reset)
    (h : hostApply a s = .next t) : s.output <+: t.output := by
  cases a with
  | reset => exact absurd rfl notReset
  | load addr data => cases h; rw [hostLoad_output]
  | start => cases h; rw [hostStart_output]
  | stepGrant => exact step_output_prefix h
  | observe => cases h; exact List.prefix_rfl

/-- A session answers with its core's next state and the events handed over. -/
theorem session_apply_next {a : HostAction} {w v : Session} (h : Session.apply a w = .next v) :
    ∃ t, hostApply a w.core = .next t ∧ v = { core := t, delivered := w.handedOver a } := by
  unfold Session.apply at h
  split at h
  next t answered => cases h; exact ⟨t, answered, rfl⟩
  all_goals cases h

theorem handedOver_of_not_reset {a : HostAction} (notReset : a ≠ .reset) (w : Session) :
    w.handedOver a = w.delivered := by
  cases a with
  | reset => exact absurd rfl notReset
  | load | start | stepGrant | observe => rfl

/-- Settles O52: reset hands the output over whole, and every other action only adds to it. -/
theorem emittedEventsStayEmitted : Obligations.EmittedEventsStayEmitted := by
  intro a w v h
  obtain ⟨t, answered, rfl⟩ := session_apply_next h
  by_cases isReset : a = .reset
  · subst isReset
    exact ⟨t.output, rfl⟩
  · obtain ⟨more, extended⟩ := hostApply_output_prefix isReset answered
    refine ⟨more, ?_⟩
    rw [Session.emitted, Session.emitted, handedOver_of_not_reset isReset, ← extended, List.append_assoc]

/-! #### The Loader -/

/-- Text without a comment marker is kept whole. -/
theorem stripComment_of_not_mem : {text : List Char} → '#' ∉ text → stripComment text = text
  | [], _ => rfl
  | c :: rest, h => by
    rw [List.mem_cons, not_or] at h
    rw [stripComment, if_neg (Ne.symm h.1), stripComment_of_not_mem h.2]

/-- Text without a blank is kept whole. -/
theorem dropBlanks_of_no_blank {text : List Char} (h : ∀ c ∈ text, isBlank c = false) :
    dropBlanks text = text := by
  cases text with
  | nil => rfl
  | cons c rest => simp [dropBlanks, h c List.mem_cons_self]

theorem trim_of_no_blank {text : List Char} (h : ∀ c ∈ text, isBlank c = false) : trim text = text := by
  have reversed : ∀ c ∈ text.reverse, isBlank c = false := fun c hc => h c (List.mem_reverse.mp hc)
  rw [trim, dropBlanks_of_no_blank h, dropBlanks_of_no_blank reversed, List.reverse_reverse]

/-- A digit appends its bit to the value read so far. -/
theorem binaryFrom_bit (acc : Nat) (bit : Bool) (rest : List Char) :
    binaryFrom acc ((if bit then '1' else '0') :: rest) = binaryFrom (2 * acc + bit.toNat) rest := by
  cases bit <;> rfl

/-- The low `k` bits of a number, read after the bits above them, give the number. -/
theorem binaryFrom_low_bits (b : Byte) : (k : Nat) →
    binaryFrom (b.toNat >>> k) ((List.range k).reverse.map fun j => if b.getLsbD j then '1' else '0') =
      some b.toNat
  | 0 => rfl
  | k + 1 => by
    have shifted : 2 * (b.toNat >>> (k + 1)) + (b.getLsbD k).toNat = b.toNat >>> k := by
      rw [BitVec.getLsbD, Nat.toNat_testBit, Nat.shiftRight_succ, Nat.shiftRight_eq_div_pow]
      omega
    rw [List.range_succ, List.reverse_append, List.reverse_singleton, List.singleton_append, List.map_cons,
      binaryFrom_bit, shifted]
    exact binaryFrom_low_bits b k

/-- A token of a byte's value reads as that byte. -/
theorem binaryByte_of_value {text : List Char} {b : Byte} (nonempty : text ≠ [])
    (value : binaryFrom 0 text = some b.toNat) : binaryByte text = some b := by
  cases text with
  | nil => exact absurd rfl nonempty
  | cons c rest =>
    have atMost : b.toNat ≤ 255 := Nat.le_of_lt_succ b.isLt
    simp only [binaryByte, value, if_pos atMost, BitVec.ofNat_toNat, BitVec.setWidth_eq]

/-- The literal of a byte is read back as that byte (R121). -/
theorem binaryByte_byteLine (b : Byte) : binaryByte (byteLine b) = some b := by
  have noHighBits : b.toNat >>> 8 = 0 := Nat.shiftRight_eq_zero b.toNat 8 b.isLt
  exact binaryByte_of_value (List.cons_ne_nil _ _) (noHighBits ▸ binaryFrom_low_bits b 8)

/-- A literal is made of the two digits. -/
theorem mem_byteLine {c : Char} {b : Byte} (h : c ∈ byteLine b) : c = '1' ∨ c = '0' := by
  obtain ⟨k, -, rfl⟩ := List.mem_map.mp h
  exact ite_eq_or_eq ..

/-- Nothing is cut from a literal. -/
theorem trim_stripComment_byteLine (b : Byte) : trim (stripComment (byteLine b)) = byteLine b := by
  have noMarker : '#' ∉ byteLine b := fun h => by
    rcases mem_byteLine h with e | e <;> cases e
  have noBlank : ∀ c ∈ byteLine b, isBlank c = false := fun c h => by
    rcases mem_byteLine h with rfl | rfl <;> rfl
  rw [stripComment_of_not_mem noMarker, trim_of_no_blank noBlank]

/-- A line whose token is a byte puts that byte before those of the later lines (R307). -/
theorem parseLines_cons_of_byte {line : Nat} {text : List Char} {rest : List (List Char)} {b : Byte}
    {bytes : List Byte} (read : binaryByte (trim (stripComment text)) = some b)
    (later : parseLines (line + 1) rest = .ok bytes) : parseLines line (text :: rest) = .ok (b :: bytes) := by
  cases token : trim (stripComment text) with
  | nil => rw [token] at read; cases read
  | cons c digits =>
    rw [token] at read
    simp only [parseLines, token, read, later]

/-- Lines that are literals are read as their bytes (R121, R307). -/
theorem parseLines_byteLines : (image : List Byte) → (line : Nat) →
    parseLines line (image.map byteLine) = .ok image
  | [], _ => rfl
  | b :: rest, line => by
    have read : binaryByte (trim (stripComment (byteLine b))) = some b := by
      rw [trim_stripComment_byteLine, binaryByte_byteLine]
    exact parseLines_cons_of_byte read (parseLines_byteLines rest (line + 1))

/-- An accepted file has an image of 1 to 256 bytes (R306). -/
theorem length_of_parseProgram {lines : List (List Char)} {image : List Byte}
    (h : parseProgram lines = .ok image) : 1 ≤ image.length ∧ image.length ≤ 256 := by
  unfold parseProgram at h
  split at h
  · cases h
  · cases h
  next b rest parsed =>
    split at h
    next short => cases h; exact ⟨Nat.succ_pos _, short⟩
    next => cases h

/-- On a refusal the core is left as reset leaves it (R307). -/
theorem bootProgram_of_refused {lines : List (List Char)} {e : LoadError}
    (h : parseProgram lines = .error e) (s : State) : bootProgram lines s = hostReset s := by
  simp only [bootProgram, h]

/-- Settles O55: literals are read back, and the length of what is read decides. -/
theorem loaderAcceptsImages : Obligations.LoaderAcceptsImages := by
  refine ⟨fun image nonempty short => ?_, fun image long => ?_, fun _ _ => length_of_parseProgram,
    fun lines e s refused => ?_⟩
  · cases image with
    | nil => cases nonempty
    | cons b rest => simp only [parseProgram, parseLines_byteLines, if_pos (Nat.lt_of_succ_le short)]
  · cases image with
    | nil => cases long
    | cons b rest =>
      rw [List.length_cons] at long
      simp only [parseProgram, parseLines_byteLines, if_neg (show ¬ rest.length < 256 by omega),
        List.length_cons]
  · rw [bootProgram_of_refused refused s]
    exact ⟨rfl, rfl⟩

/-! #### The invariant under the host's actions -/

/-- Settles O56: this hardware's configuration is one of the legal ones. -/
theorem invariantAtReset : Obligations.InvariantAtReset :=
  ⟨inv_resetWith (by decide), fun _ legal => inv_resetWith legal⟩

/-- Settles O58: each action by its own lemma. -/
theorem hostActionsKeepInvariant : Obligations.HostActionsKeepInvariant := by
  intro a s t inv h
  cases a with
  | reset => cases h; exact inv_resetWith inv.cfg_wf
  | load addr data => cases h; exact hostLoad_keeps_inv addr data inv
  | start => cases h; exact hostStart_keeps_inv inv
  | stepGrant => exact stepKeepsInvariant s t inv h
  | observe => cases h; exact inv

end Sys2Proof.Machine
